-- ==== Sys2Proof/Word.lean ====
section
/-! DEFINITION. The word types of CNS-SHA1-MODEXP (00_scope.md R7, R9; 30_encoding.md R81). -/

namespace Sys2Proof

/-- A register, and a word of SHA-1: 32 bits (R7). Addition of words is the `+32` of R10. -/
abbrev Word := BitVec 32

/-- A byte of a message or of a digest (R60, R61). -/
abbrev Byte := BitVec 8

/-- A byte offset in the register window: bits [11:0] of a bus address less BLOCK_BASE (R24, R81). -/
abbrev Offset := BitVec 12

end Sys2Proof
end

