-- ==== Sys2Proof/Syntax.lean ====
section
/-! DEFINITION. The commands of the block, one constructor per row of spec/opcode_table.json
(30_encoding.md R82). A command has no immediate and no register field. -/

namespace Sys2Proof

/-- A command a host may write to CMD (R82). -/
inductive Instr where
  /-- NOP, R102 -/
  | nop
  /-- SRST, R101 -/
  | srst
  /-- SHA1.INIT, R144 -/
  | sha1Init
  /-- SHA1.BLOCK, R145 -/
  | sha1Block
  /-- SHA1.ABORT, R146 -/
  | sha1Abort
  /-- MEXP.EXP, R116 -/
  | mexpExp
  /-- MEXP.MUL, R117 -/
  | mexpMul
  /-- MEXP.ABORT, R118 -/
  | mexpAbort
  deriving DecidableEq, Repr, Inhabited

end Sys2Proof
end

