-- ==== Sys2Proof/HostSyntax.lean ====
section
/-! DEFINITION. What comes from outside the block: the bus transaction (30_encoding.md R81), the statements of a host
program (R88, R89), and the agents that may take the next step (10_state.md R20, R21; 00_scope.md R13). -/

namespace Sys2Proof

/-- DIR of a bus transaction (R81). -/
inductive Dir where
  | read
  | write
  deriving DecidableEq, Repr, Inhabited

/-- A bus transaction (R81). `data` is the write data; a read does not use it. `size` is in bytes. -/
structure Txn where
  dir : Dir
  off : Offset
  size : Nat
  data : Word
  deriving DecidableEq, Repr, Inhabited

/-- `MemRead(off, n)` (R12). -/
def Txn.memRead (off : Offset) (n : Nat) : Txn := ⟨.read, off, n, 0⟩

/-- `MemWrite(off, n, v)` (R12). -/
def Txn.memWrite (off : Offset) (n : Nat) (v : Word) : Txn := ⟨.write, off, n, v⟩

/-- The name of a host register $0..$15 (R89). -/
abbrev HostReg := Fin 16

/-- SRC of `wr OFF, SRC`: an immediate or a host register (R88). -/
inductive Src where
  | imm (v : Word)
  | reg (k : HostReg)
  deriving DecidableEq, Repr, Inhabited

/-- The statements of a host program (R88, R89). A label is the index of the statement it names (R92). -/
inductive Stmt where
  /-- `wr OFF, SRC`: one bus write -/
  | wr (off : Offset) (src : Src)
  /-- `rd $k, OFF`: one bus read -/
  | rd (k : HostReg) (off : Offset)
  /-- `li $k, imm` -/
  | li (k : HostReg) (imm : Word)
  /-- `mv $k, $j` -/
  | mv (k j : HostReg)
  /-- `andi $k, $j, imm` -/
  | andi (k j : HostReg) (imm : Word)
  /-- `addi $k, $j, imm` -/
  | addi (k j : HostReg) (imm : Word)
  /-- `beq $k, imm, L` -/
  | beq (k : HostReg) (imm : Word) (target : Nat)
  /-- `bne $k, imm, L` -/
  | bne (k : HostReg) (imm : Word) (target : Nat)
  /-- `beqr $k, $j, L` -/
  | beqr (k j : HostReg) (target : Nat)
  /-- `jmp L` -/
  | jmp (target : Nat)
  /-- `halt` -/
  | halt
  deriving DecidableEq, Repr, Inhabited

/-- Who takes the next step (R13, R20, R21). -/
inductive Agent where
  /-- the host program executes its next statement (R92) -/
  | program
  /-- a bus master performs an access: the interconnect gives the block one stream of them (R20, R175) -/
  | bus (t : Txn)
  /-- the SHA1 unit (R141, R143) -/
  | sha1
  /-- the MEXP unit (R114) -/
  | mexp
  /-- the hardware reset input is asserted (R180) -/
  | reset
  deriving DecidableEq, Repr, Inhabited

end Sys2Proof
end

