-- ==== Sys2Proof/Config.lean ====
section
/-! DEFINITION. What an instance fixes (00_scope.md R7, 92_eei_decisions.md "Open parameters") and the free value. -/

namespace Sys2Proof.Config

/-- The reference value of NW (R7). NW itself is a field of the state, so that a statement holds for every instance
(log entry 1). -/
def referenceNw : Nat := 2

/-- FREE VALUE. Who takes the step when the schedule in the state says nothing: R21 lets any agent come next, and fixes no
rule for the choice (log entry 2). -/
opaque freeAgent : Nat → Agent

/-- OPEN PARAMETER. The number of the 4 KiB page of the bus on which the platform puts the window (R7, D2; log entry 3). -/
opaque blockPage : Nat

/-- BLOCK_BASE, aligned to 4 KiB (R7). -/
def blockBase : Nat := 4096 * blockPage

end Sys2Proof.Config
end

