-- ==== Sys2Proof/WellFormed.lean ====
section
/-! DEFINITION. What a well-formed command, command word, bus transaction and host program are (30_encoding.md R80, R83,
R92; 20_memory.md R64). -/

namespace Sys2Proof

/-- A command has no operand field (R82), so no command is ill-formed. -/
def Instr.wellFormed : Instr → Bool
  | .nop => true
  | .srst => true
  | .sha1Init => true
  | .sha1Block => true
  | .sha1Abort => true
  | .mexpExp => true
  | .mexpMul => true
  | .mexpAbort => true

/-- R83: RSVD, bits [31:8], is 0. -/
def rsvdIsZero (w : Word) : Bool := w.toNat / 256 = 0

/-- R83: bits [7:0] are one of the eight defined OP values. -/
def opIsDefined (w : Word) : Bool := w.toNat % 256 ∈ [0x00, 0x01, 0x10, 0x11, 0x1F, 0x20, 0x21, 0x2F]

/-- A command word that is not illegal (R83). -/
def cmdWordWellFormed (w : Word) : Bool := rsvdIsZero w && opIsDefined w

/-- An access the block admits: 4 bytes at an offset divisible by 4 (R64). -/
def Txn.wellFormed (t : Txn) : Bool := t.size = 4 && t.off.toNat % 4 = 0

/-- The offsets of a statement are those of aligned words (R182 item 6), and its label names a statement of a program of `n`
statements (R92). -/
def Stmt.wellFormed (n : Nat) : Stmt → Bool
  | .wr off _ => off.toNat % 4 = 0
  | .rd _ off => off.toNat % 4 = 0
  | .li _ _ => true
  | .mv _ _ => true
  | .andi _ _ _ => true
  | .addi _ _ _ => true
  | .beq _ _ target => target < n
  | .bne _ _ target => target < n
  | .beqr _ _ target => target < n
  | .jmp target => target < n
  | .halt => true

/-- A host program whose labels and offsets are all well-formed. -/
def programWellFormed (p : List Stmt) : Bool := p.all (Stmt.wellFormed p.length)

end Sys2Proof
end

