-- ==== Sys2Proof/Decode.lean ====
section
/-! DEFINITION. The command decoder, total on all 2^32 words (30_encoding.md R85), and the encoder (R82). -/

namespace Sys2Proof

/-- Why a command word is illegal (R83). -/
inductive Illegal where
  /-- RSVD, bits [31:8], is not 0 -/
  | rsvdNotZero
  /-- OP, bits [7:0], is a reserved value -/
  | undefinedOp
  deriving DecidableEq, Repr

/-- What the decoder answers (R85). -/
inductive Decoded where
  | command (i : Instr)
  | illegal (why : Illegal)
  deriving DecidableEq, Repr

/-- OP, bits [7:0] of a command word (R80). -/
def opField (w : Word) : BitVec 8 := w.extractLsb' 0 8

/-- RSVD, bits [31:8] of a command word (R80). -/
def rsvdField (w : Word) : BitVec 24 := w.extractLsb' 8 24

/-- The opcode map (R82). -/
def opcodeMap : List (BitVec 8 × Instr) :=
  [(0x00, .nop), (0x01, .srst),
   (0x10, .sha1Init), (0x11, .sha1Block), (0x1F, .sha1Abort),
   (0x20, .mexpExp), (0x21, .mexpMul), (0x2F, .mexpAbort)]

/-- R85. -/
def decode (w : Word) : Decoded :=
  if rsvdField w ≠ 0 then .illegal .rsvdNotZero
  else match opcodeMap.lookup (opField w) with
    | some i => .command i
    | none => .illegal .undefinedOp

/-- The OP of a command (R82). -/
def opcode : Instr → BitVec 8
  | .nop => 0x00
  | .srst => 0x01
  | .sha1Init => 0x10
  | .sha1Block => 0x11
  | .sha1Abort => 0x1F
  | .mexpExp => 0x20
  | .mexpMul => 0x21
  | .mexpAbort => 0x2F

/-- The command word of a command: RSVD = 0, then OP (R80, R82). -/
def encode (i : Instr) : Word := (0 : BitVec 24) ++ opcode i

/-- A row of spec/opcode_table.json has 32 bits, which are one command word (R80): the bits of `w` below `nbits` are the
word's, and the bits above are 0. The byte lanes of the bus are not visible (R63). -/
def decodeTableWord (nbits w : Nat) : Option Instr :=
  if nbits ≤ 32 then
    match decode (BitVec.ofNat 32 (w % 2 ^ nbits)) with
    | .command i => some i
    | .illegal _ => none
  else none

end Sys2Proof
end

