-- ==== Sys2Proof/Machine/Constants.lean ====
section
/-! DEFINITION. The constants of the register map (10_state.md R25, R26; 30_encoding.md R86) and of SHA-1 (42_sha1.md R131,
R132), and rotl32 (00_scope.md R10). -/

namespace Sys2Proof.Machine

/-- `rotl32(x, n)` (R10). -/
def rotl32 (x : Word) (n : Nat) : Word := (x <<< n) ||| (x >>> (32 - n))

/-- The IV (R131; general knowledge of the spec, GK1). -/
def iv : Vector Word 5 := #v[0x67452301, 0xEFCDAB89, 0x98BADCFE, 0x10325476, 0xC3D2E1F0]

/-- K_t (R132). -/
def roundK (t : Nat) : Word :=
  if t < 20 then 0x5A827999
  else if t < 40 then 0x6ED9EBA1
  else if t < 60 then 0x8F1BBCDC
  else 0xCA62C1D6

/-- f_t(b, c, d) (R132). -/
def roundF (t : Nat) (b c d : Word) : Word :=
  if t < 20 then (b &&& c) ||| (~~~b &&& d)
  else if t < 40 then b ^^^ c ^^^ d
  else if t < 60 then (b &&& c) ||| (b &&& d) ||| (c &&& d)
  else b ^^^ c ^^^ d

/-- The value of ID: MAGIC "CNS", VERSION 1 (R26). -/
def idValue : Word := (0x434E53 : BitVec 24) ++ (0x01 : BitVec 8)

/-- N, the bits of a modular operand: 32·NW (R7). -/
def operandBits (nw : Nat) : Nat := 32 * nw

/-! The symbolic offsets (R25, R86). -/

def offId : Offset := 0x000
def offParam : Offset := 0x004
def offCmd : Offset := 0x008
def offStatus : Offset := 0x00C
def offIrqEn : Offset := 0x010
def offH (k : Nat) : Offset := BitVec.ofNat 12 (0x020 + 4 * k)
def offMsg (j : Nat) : Offset := BitVec.ofNat 12 (0x040 + 4 * j)
def offOpa (i : Nat) : Offset := BitVec.ofNat 12 (0x100 + 4 * i)
def offOpb (i : Nat) : Offset := BitVec.ofNat 12 (0x200 + 4 * i)
def offMod (i : Nat) : Offset := BitVec.ofNat 12 (0x300 + 4 * i)
def offResult (i : Nat) : Offset := BitVec.ofNat 12 (0x400 + 4 * i)

end Sys2Proof.Machine
end

