-- ==== Sys2Proof/Machine/State.lean ====
section
/-! DEFINITION. The state of the machine: the block (10_state.md R46), the host of the spec's host notation (30_encoding.md
R89, R92), and the model's own schedule (R21). All of it is plain data. -/

namespace Sys2Proof.Machine

/-- The values of ERRCODE (60_exceptions.md R160). -/
inductive ErrCode where
  /-- 0x00 NONE -/
  | noError
  /-- 0x01 ILLEGAL_CMD -/
  | illegalCmd
  /-- 0x02 SHA_BUSY -/
  | shaBusy
  /-- 0x03 MEXP_BUSY -/
  | mexpBusy
  /-- 0x04 MOD_ZERO -/
  | modZero
  deriving DecidableEq, Repr

/-- u.sha_state (R40). -/
inductive ShaPhase where
  | idle
  | run
  deriving DecidableEq, Repr

/-- u.mexp_state (R41). -/
inductive MexpPhase where
  | idle
  | exp
  | mul
  deriving DecidableEq, Repr

/-- The registers of the BIU: IRQ_EN (R30) and the stored bits of STATUS (R29). -/
structure Biu where
  irqEn : BitVec 3
  shaDone : Bool
  mexpDone : Bool
  err : Bool
  errCode : ErrCode
  deriving DecidableEq, Repr

/-- The working variables a, b, c, d, e (R40, R134). -/
structure Work where
  a : Word
  b : Word
  c : Word
  d : Word
  e : Word
  deriving DecidableEq, Repr

/-- The SHA1 unit: H0..H4 (R31), MSG0..MSG15 (R32), u.sha_state, u.t, u.A..u.E, u.W (R40). -/
structure ShaUnit where
  h : Vector Word 5
  msg : Vector Word 16
  phase : ShaPhase
  t : Fin 81
  work : Work
  w : Vector Word 16
  deriving DecidableEq, Repr

/-- The MEXP unit: OPA, OPB, MOD, RESULT, word 0 first (R33), u.mexp_state, u.m, u.b, u.e, u.r (R41). The four lists have
NW words each (`ParamInv`). -/
structure MexpUnit where
  opa : List Word
  opb : List Word
  mod : List Word
  result : List Word
  phase : MexpPhase
  m : Nat
  b : Nat
  e : Nat
  r : Nat
  deriving DecidableEq, Repr

/-- The host (R89, R92): its program, its pc (the index of the next statement), its registers, whether it has executed
`halt` (R193), and the DATA of the last read transaction (R81). No rule of the block reads any of it. -/
structure HostState where
  prog : List Stmt
  pc : Nat
  regs : Vector Word 16
  halted : Bool
  data : Word
  deriving DecidableEq, Repr

/-- The machine. `nw` is the instance parameter NW (R7), which no step changes. `schedule` and `turn` are the model's own: who
takes the next steps, first to last, and the argument of the free value that takes over where the schedule ends (R21, log
entry 2). -/
structure State where
  nw : Nat
  biu : Biu
  sha : ShaUnit
  mexp : MexpUnit
  host : HostState
  schedule : List Agent
  turn : Nat
  deriving DecidableEq, Repr

/-- Why the machine stops. -/
inductive Fault where
  /-- Raised by a bus access that is not 4 bytes wide or not at an offset divisible by 4 (R64, R162), whoever makes it. SAFE:
  the block goes on in the state it had, the model stops (log entry 5). -/
  | busError (off : Offset)
  deriving DecidableEq, Repr

/-- Why the model gives no meaning. -/
inductive Refusal where
  /-- An instruction that has no meaning yet. Raised by nothing: every arm of `exec` has its meaning. SAFE. -/
  | notModelled (mnemonic : String)
  deriving DecidableEq, Repr

/-- The outcome of a step, a meaning or a shared operation. -/
abbrev Outcome := Host.Outcome State Fault Refusal

/-- IRQ_EN and STATUS after reset (R45). -/
def Biu.reset : Biu := ⟨0, false, false, false, .noError⟩

/-- u.A..u.E after reset or an abort (R45, R146). -/
def Work.zero : Work := ⟨0, 0, 0, 0, 0⟩

/-- The SHA1 unit after reset (R45). -/
def ShaUnit.reset : ShaUnit := ⟨iv, Vector.replicate 16 0, .idle, 0, Work.zero, Vector.replicate 16 0⟩

/-- The MEXP unit of an instance with NW = `nw` after reset (R45). -/
def MexpUnit.reset (nw : Nat) : MexpUnit :=
  ⟨List.replicate nw 0, List.replicate nw 0, List.replicate nw 0, List.replicate nw 0, .idle, 1, 0, 0, 0⟩

/-- A host before it has a program. DESIGN CHOICE: the spec gives the host no reset (log entry 4). -/
def HostState.reset : HostState := ⟨[], 0, Vector.replicate 16 0, false, 0⟩

/-- An instance with NW = `nw` right after a hardware reset, with no host program and nothing scheduled (R45, R180). -/
def State.resetOf (nw : Nat) : State :=
  ⟨nw, Biu.reset, ShaUnit.reset, MexpUnit.reset nw, HostState.reset, [], 0⟩

/-- The machine right after reset, for the reference value of NW (R7, R45; log entry 1). -/
def State.reset : State := State.resetOf Config.referenceNw

def State.setBiu (s : State) (x : Biu) : State := { s with biu := x }
def State.setSha (s : State) (x : ShaUnit) : State := { s with sha := x }
def State.setMexp (s : State) (x : MexpUnit) : State := { s with mexp := x }
def State.setHost (s : State) (x : HostState) : State := { s with host := x }
def State.setSchedule (s : State) (x : List Agent) : State := { s with schedule := x }

end Sys2Proof.Machine
end

