-- ==== Sys2Proof/Machine/Ops.lean ====
section
/-! DEFINITION. The shared operations: recording a BlockError (60_exceptions.md R161), the whole-block reset (40_control.md
R101, 70_reset_and_hazards.md R180), the admission of an access (20_memory.md R64), and the bus address (30_encoding.md R81). -/

namespace Sys2Proof.Machine

/-- `raise BlockError(code)` (R161): the first error is kept. This is all an error does: there is no trap (R166). -/
def raiseBlockError (code : ErrCode) (s : State) : State :=
  s.setBiu { s.biu with err := true, errCode := if s.biu.err then s.biu.errCode else code }

/-- `reset_all()` (R101): every register and every unit field takes its value of R45. The host and the schedule are not the
block's. -/
def resetAll (s : State) : State :=
  { s with biu := Biu.reset, sha := ShaUnit.reset, mexp := MexpUnit.reset s.nw }

/-- The SHA1 unit is busy: STATUS.SHA_BUSY (R43). -/
def shaBusy (s : State) : Bool := s.sha.phase = .run

/-- The MEXP unit is busy: STATUS.MEXP_BUSY (R43). -/
def mexpBusy (s : State) : Bool := s.mexp.phase ≠ .idle

/-- Only an aligned 32-bit access is admitted (R64). -/
def admitted (t : Txn) : Bool := t.size = 4 && t.off.toNat % 4 = 0

/-- The bus address of an offset (R67, R81). -/
def busAddress (off : Offset) : Nat := Config.blockBase + off.toNat

/-- The offset the block decodes of a bus address: bits [11:0] of the address less BLOCK_BASE, and nothing else (R68, R81).
DESIGN CHOICE: an address below BLOCK_BASE is in no window and the spec gives it no offset; the subtraction of naturals makes it
0x000 here (log entry 18). No step uses it: a transaction carries its offset. -/
def offsetOfBusAddress (addr : Nat) : Offset := BitVec.ofNat 12 (addr - Config.blockBase)

/-- The outcome with `f` applied to its next state. -/
def mapNext (f : State → State) : Outcome → Outcome
  | .next s => .next (f s)
  | .fault r => .fault r
  | .refused r => .refused r

end Sys2Proof.Machine
end

