-- ==== Sys2Proof/Machine/Operands.lean ====
section
/-! DEFINITION. Operand assembly (10_state.md R33, 20_memory.md R62) and the register an offset names (10_state.md R25). -/

namespace Sys2Proof.Machine

/-- The value of a modular operand: the sum of its words times 2^(32 i), word 0 first (R33). -/
def wordsToNat : List Word → Nat
  | [] => 0
  | w :: ws => w.toNat + 2 ^ 32 * wordsToNat ws

/-- The `n` words of a value: word i is v[32i+31 : 32i] (R33). -/
def natToWords : Nat → Nat → List Word
  | 0, _ => []
  | n + 1, v => BitVec.ofNat 32 v :: natToWords n (v / 2 ^ 32)

/-- x[OPA] (R33). -/
def opaValue (s : State) : Nat := wordsToNat s.mexp.opa

/-- x[OPB] (R33). -/
def opbValue (s : State) : Nat := wordsToNat s.mexp.opb

/-- x[MOD] (R33). -/
def modValue (s : State) : Nat := wordsToNat s.mexp.mod

/-- x[RESULT] (R33). -/
def resultValue (s : State) : Nat := wordsToNat s.mexp.result

/-- What stands at an offset of the register map (R25). -/
inductive Register where
  | id
  | param
  | cmd
  | status
  | irqEn
  | h (k : Fin 5)
  | msg (j : Fin 16)
  | opa (i : Nat)
  | opb (i : Nat)
  | mod (i : Nat)
  | result (i : Nat)
  | reserved
  deriving DecidableEq, Repr

/-- The register at byte `n` of the window, `n` divisible by 4 (R25). -/
def registerAtByte (nw n : Nat) : Register :=
  if n = 0x000 then .id
  else if n = 0x004 then .param
  else if n = 0x008 then .cmd
  else if n = 0x00C then .status
  else if n = 0x010 then .irqEn
  else if hk : 0x020 ≤ n ∧ n < 0x034 then .h ⟨(n - 0x020) / 4, by omega⟩
  else if hj : 0x040 ≤ n ∧ n < 0x080 then .msg ⟨(n - 0x040) / 4, by omega⟩
  else if 0x100 ≤ n ∧ n < 0x100 + 4 * nw then .opa ((n - 0x100) / 4)
  else if 0x200 ≤ n ∧ n < 0x200 + 4 * nw then .opb ((n - 0x200) / 4)
  else if 0x300 ≤ n ∧ n < 0x300 + 4 * nw then .mod ((n - 0x300) / 4)
  else if 0x400 ≤ n ∧ n < 0x400 + 4 * nw then .result ((n - 0x400) / 4)
  else .reserved

/-- The register at an offset (R25). -/
def registerAt (nw : Nat) (off : Offset) : Register := registerAtByte nw off.toNat

/-- Word `i` of an operand register file, 0 beyond its last word (R34). -/
def operandWord (ws : List Word) (i : Nat) : Word := ws.getD i 0

end Sys2Proof.Machine
end

