-- ==== Sys2Proof/Machine/Flags.lean ====
section
/-! DEFINITION. The STATUS register (10_state.md R29), the derived fields and the interrupt output (R43), and the
acknowledgement of an event (60_exceptions.md R167). -/

namespace Sys2Proof.Machine

/-- The byte of an error code (R160). -/
def ErrCode.byte : ErrCode → BitVec 8
  | .noError => 0x00
  | .illegalCmd => 0x01
  | .shaBusy => 0x02
  | .mexpBusy => 0x03
  | .modZero => 0x04

/-- The interrupt output (R43, R164). -/
def irq (s : State) : Bool :=
  (s.biu.shaDone && s.biu.irqEn.getLsbD 0) ||
  (s.biu.mexpDone && s.biu.irqEn.getLsbD 1) ||
  (s.biu.err && s.biu.irqEn.getLsbD 2)

/-- The value of STATUS, its fields from bit 31 down (R29). -/
def statusWord (s : State) : Word :=
  (0 : BitVec 9) ++ BitVec.ofNat 7 s.sha.t.val ++ s.biu.errCode.byte ++ (0 : BitVec 2)
    ++ BitVec.ofBool (irq s) ++ BitVec.ofBool s.biu.err ++ BitVec.ofBool s.biu.mexpDone
    ++ BitVec.ofBool (mexpBusy s) ++ BitVec.ofBool s.biu.shaDone ++ BitVec.ofBool (shaBusy s)

/-- A write of `v` to STATUS (R29): write 1 to clear SHA_DONE, MEXP_DONE, and ERR with ERRCODE. -/
def statusW1c (v : Word) (s : State) : State :=
  s.setBiu { s.biu with
    shaDone := s.biu.shaDone && !v.getLsbD 1
    mexpDone := s.biu.mexpDone && !v.getLsbD 3
    err := s.biu.err && !v.getLsbD 4
    errCode := if v.getLsbD 4 then .noError else s.biu.errCode }

/-- A write of `v` to IRQ_EN (R30). -/
def writeIrqEn (v : Word) (s : State) : State := s.setBiu { s.biu with irqEn := v.extractLsb' 0 3 }

/-- IRQ_EN as it is read (R30). -/
def irqEnWord (s : State) : Word := s.biu.irqEn.setWidth 32

/-- PARAM: NW in bits [7:0] (R27). -/
def paramWord (s : State) : Word := (BitVec.ofNat 8 s.nw).setWidth 32

end Sys2Proof.Machine
end

