-- ==== Sys2Proof/Machine/Compress.lean ====
section
/-! DEFINITION. The SHA-1 compression function on values (42_sha1.md R133 to R135): what the SHA1 unit computes. -/

namespace Sys2Proof.Machine

/-- The first 16 + n words of the message schedule of the block `m` (R133). Word 16 + n is made of the words n + 13, n + 8,
n + 2 and n, which are 3, 8, 14 and 16 before it. -/
def schedulePart (m : Vector Word 16) : Nat → List Word
  | 0 => m.toList
  | n + 1 =>
    let ws := schedulePart m n
    ws ++ [rotl32 (ws.getD (n + 13) 0 ^^^ ws.getD (n + 8) 0 ^^^ ws.getD (n + 2) 0 ^^^ ws.getD n 0) 1]

/-- w[j], 0 ≤ j < 80 (R133). -/
def scheduleWord (m : Vector Word 16) (j : Nat) : Word := (schedulePart m 64).getD j 0

/-- Round `t` with the schedule word `wt` (R134). -/
def round (t : Nat) (wt : Word) (x : Work) : Work :=
  ⟨rotl32 x.a 5 + roundF t x.b x.c x.d + x.e + roundK t + wt, x.a, rotl32 x.b 30, x.c, x.d⟩

/-- The working variables seeded from a chaining value (R135). -/
def Work.ofChain (h : Vector Word 5) : Work := ⟨h[0], h[1], h[2], h[3], h[4]⟩

/-- The working variables after the first `n` rounds on the block `m` from the chaining value `h` (R135). -/
def roundsFrom (h : Vector Word 5) (m : Vector Word 16) : Nat → Work
  | 0 => Work.ofChain h
  | t + 1 => round t (scheduleWord m t) (roundsFrom h m t)

/-- The feed-forward: each working variable is added into its chaining word (R135, R143). -/
def feedForward (h : Vector Word 5) (x : Work) : Vector Word 5 :=
  #v[h[0] + x.a, h[1] + x.b, h[2] + x.c, h[3] + x.d, h[4] + x.e]

/-- Compress(H, M) (R135): the feed-forward belongs to every block (90_conflicts.md C1). -/
def compress (h : Vector Word 5) (m : Vector Word 16) : Vector Word 5 := feedForward h (roundsFrom h m 80)

end Sys2Proof.Machine
end

