-- ==== Sys2Proof/Machine/Control.lean ====
section
/-! DEFINITION. The commands of the whole block: NOP and SRST (40_control.md R101, R102). -/

namespace Sys2Proof.Machine

/-- NOP (R102). -/
def execNop (s : State) : Outcome := .next s

/-- SRST (R101): accepted while either unit is busy. -/
def execSrst (s : State) : Outcome := .next (resetAll s)

end Sys2Proof.Machine
end

