-- ==== Sys2Proof/Machine/Sha1.lean ====
section
/-! DEFINITION. The SHA1 unit: its commands (42_sha1.md R144 to R146) and its steps (R140 to R143). -/

namespace Sys2Proof.Machine

/-- `sha1_init()` (R144). -/
def sha1Init (s : State) : State := s.setSha { s.sha with h := iv }

/-- `sha1_accept()` (R140). -/
def sha1Accept (s : State) : State :=
  (s.setBiu { s.biu with shaDone := false }).setSha
    { s.sha with w := s.sha.msg, work := Work.ofChain s.sha.h, t := 0, phase := .run }

/-- `sha1_abort()` (R146). -/
def sha1Abort (s : State) : State :=
  match s.sha.phase with
  | .idle => s
  | .run => s.setSha { s.sha with phase := .idle, t := 0, work := Work.zero, w := Vector.replicate 16 0 }

/-- SHA1.INIT (R100, R144). -/
def execSha1Init (s : State) : Outcome :=
  if shaBusy s then .next (raiseBlockError .shaBusy s) else .next (sha1Init s)

/-- SHA1.BLOCK (R100, R145). -/
def execSha1Block (s : State) : Outcome :=
  if shaBusy s then .next (raiseBlockError .shaBusy s) else .next (sha1Accept s)

/-- SHA1.ABORT (R100, R146). -/
def execSha1Abort (s : State) : Outcome := .next (sha1Abort s)

/-- w[t] out of the circular window, before round `t` (R141). -/
def windowWord (w : Vector Word 16) (t : Nat) : Word :=
  if t < 16 then w[t % 16]
  else rotl32 (w[(t - 3) % 16] ^^^ w[(t - 8) % 16] ^^^ w[(t - 14) % 16] ^^^ w[t % 16]) 1

/-- The circular window after round `t` (R141): from round 16 on, w[t] replaces w[t - 16]. -/
def windowNext (w : Vector Word 16) (t : Nat) : Vector Word 16 :=
  if t < 16 then w else w.set (t % 16) (windowWord w t)

/-- `sha1_round()` on the unit's state, for u.t < 80 (R141). -/
def sha1Round (u : ShaUnit) (ht : u.t.val < 80) : ShaUnit :=
  { u with
    work := round u.t.val (windowWord u.w u.t.val) u.work
    w := windowNext u.w u.t.val
    t := ⟨u.t.val + 1, by omega⟩ }

/-- `sha1_complete()` (R143). -/
def sha1Complete (s : State) : State :=
  (s.setBiu { s.biu with shaDone := true }).setSha
    { s.sha with h := feedForward s.sha.h s.sha.work, t := 0, phase := .idle }

/-- One step of the SHA1 unit: enabled exactly while it runs (R20), and then a round (R141) or the completion (R143). -/
def sha1Step (s : State) : State :=
  match s.sha.phase with
  | .idle => s
  | .run => if ht : s.sha.t.val < 80 then s.setSha (sha1Round s.sha ht) else sha1Complete s

end Sys2Proof.Machine
end

