-- ==== Sys2Proof/Machine/Mexp.lean ====
section
/-! DEFINITION. The MEXP unit: the functions it computes (41_modexp.md R111, R112), its commands (R116 to R118) and its steps
(R114, R115). All arithmetic is on naturals and exact (R121). -/

namespace Sys2Proof.Machine

/-- ModExp(a, e, m) (R111). -/
def modExp (a e m : Nat) : Nat := a ^ e % m

/-- ModMul(a, b, m) (R112). -/
def modMul (a b m : Nat) : Nat := a * b % m

/-- `bitlen(e)` (R10). -/
def bitlen (e : Nat) : Nat := if e = 0 then 0 else Nat.log2 e + 1

/-- `mexp_accept_exp()` (R116). -/
def mexpAcceptExp (s : State) : State :=
  (s.setBiu { s.biu with mexpDone := false }).setMexp
    { s.mexp with
      m := modValue s
      b := opaValue s % modValue s
      e := opbValue s
      r := 1 % modValue s
      phase := .exp }

/-- `mexp_accept_mul()` (R117). -/
def mexpAcceptMul (s : State) : State :=
  (s.setBiu { s.biu with mexpDone := false }).setMexp
    { s.mexp with
      m := modValue s
      r := opaValue s * opbValue s % modValue s
      b := 0
      e := 0
      phase := .mul }

/-- `mexp_abort()` (R118). -/
def mexpAbort (s : State) : State :=
  match s.mexp.phase with
  | .idle => s
  | .exp => s.setMexp { s.mexp with phase := .idle, m := 1, b := 0, e := 0, r := 0 }
  | .mul => s.setMexp { s.mexp with phase := .idle, m := 1, b := 0, e := 0, r := 0 }

/-- The checks of R100 before a MEXP command is accepted: MEXP_BUSY first, then MOD_ZERO. -/
def mexpAcceptOr (accept : State → State) (s : State) : State :=
  if mexpBusy s then raiseBlockError .mexpBusy s
  else if modValue s = 0 then raiseBlockError .modZero s
  else accept s

/-- MEXP.EXP (R100, R116). -/
def execMexpExp (s : State) : Outcome := .next (mexpAcceptOr mexpAcceptExp s)

/-- MEXP.MUL (R100, R117). -/
def execMexpMul (s : State) : Outcome := .next (mexpAcceptOr mexpAcceptMul s)

/-- MEXP.ABORT (R100, R118). -/
def execMexpAbort (s : State) : Outcome := .next (mexpAbort s)

/-- `mexp_complete()` (R115). -/
def mexpComplete (s : State) : State :=
  (s.setBiu { s.biu with mexpDone := true }).setMexp
    { s.mexp with result := natToWords s.nw s.mexp.r, phase := .idle }

/-- One exponent bit: multiply if it is 1, square, shift (R114). -/
def mexpBit (u : MexpUnit) : MexpUnit :=
  { u with
    r := if u.e % 2 = 1 then u.r * u.b % u.m else u.r
    b := u.b * u.b % u.m
    e := u.e / 2 }

/-- One step of the MEXP unit: enabled exactly while it is busy (R20, R114). -/
def mexpStep (s : State) : State :=
  match s.mexp.phase with
  | .idle => s
  | .exp => if s.mexp.e ≠ 0 then s.setMexp (mexpBit s.mexp) else mexpComplete s
  | .mul => mexpComplete s

end Sys2Proof.Machine
end

