-- ==== Sys2Proof/Machine/Dispatch.lean ====
section
/-! DEFINITION. The meaning of each command, one arm per constructor (40_control.md R100). -/

namespace Sys2Proof.Machine

def exec (i : Instr) (s : State) : Host.Outcome State Fault Refusal :=
  match i with
  | .nop => Sys2Proof.Machine.execNop s
  | .srst => Sys2Proof.Machine.execSrst s
  | .sha1Init => Sys2Proof.Machine.execSha1Init s
  | .sha1Block => Sys2Proof.Machine.execSha1Block s
  | .sha1Abort => Sys2Proof.Machine.execSha1Abort s
  | .mexpExp => Sys2Proof.Machine.execMexpExp s
  | .mexpMul => Sys2Proof.Machine.execMexpMul s
  | .mexpAbort => Sys2Proof.Machine.execMexpAbort s

end Sys2Proof.Machine
end

