-- ==== Sys2Proof/Machine/Bus.lean ====
section
/-! DEFINITION. What a bus access does (10_state.md R35 to R37, 20_memory.md R64), and the acceptance of a command word
(40_control.md R100). -/

namespace Sys2Proof.Machine

/-- `command(v)` (R100): ILLEGAL_CMD is checked before anything else. -/
def command (v : Word) (s : State) : Outcome :=
  match decode v with
  | .illegal _ => .next (raiseBlockError .illegalCmd s)
  | .command i => exec i s

/-- The value at an offset (R36): the register map in the current state. -/
def readReg (s : State) (off : Offset) : Word :=
  match registerAt s.nw off with
  | .id => idValue
  | .param => paramWord s
  | .cmd => 0
  | .status => statusWord s
  | .irqEn => irqEnWord s
  | .h k => s.sha.h.get k
  | .msg j => s.sha.msg.get j
  | .opa i => operandWord s.mexp.opa i
  | .opb i => operandWord s.mexp.opb i
  | .mod i => operandWord s.mexp.mod i
  | .result i => operandWord s.mexp.result i
  | .reserved => 0

/-- A write to an input register of the SHA1 unit (R35). -/
def writeSha (u : ShaUnit) (s : State) : State :=
  if shaBusy s then raiseBlockError .shaBusy s else s.setSha u

/-- A write to an input register of the MEXP unit (R35). -/
def writeMexp (u : MexpUnit) (s : State) : State :=
  if mexpBusy s then raiseBlockError .mexpBusy s else s.setMexp u

/-- A write of `v` at an offset (R37). -/
def writeReg (off : Offset) (v : Word) (s : State) : Outcome :=
  match registerAt s.nw off with
  | .id => .next s
  | .param => .next s
  | .cmd => command v s
  | .status => .next (statusW1c v s)
  | .irqEn => .next (writeIrqEn v s)
  | .h k => .next (writeSha { s.sha with h := s.sha.h.set k.val v } s)
  | .msg j => .next (writeSha { s.sha with msg := s.sha.msg.set j.val v } s)
  | .opa i => .next (writeMexp { s.mexp with opa := s.mexp.opa.set i v } s)
  | .opb i => .next (writeMexp { s.mexp with opb := s.mexp.opb.set i v } s)
  | .mod i => .next (writeMexp { s.mexp with mod := s.mexp.mod.set i v } s)
  | .result _ => .next s
  | .reserved => .next s

/-- A read: the DATA of the transaction is the value, and the block does not change (R36, R81). -/
def busRead (off : Offset) (s : State) : State := s.setHost { s.host with data := readReg s off }

/-- A bus transaction (R64, R81): a bus error, or a read (R36), or a write (R37). -/
def busAccess (t : Txn) (s : State) : Outcome :=
  if admitted t then
    match t.dir with
    | .read => .next (busRead t.off s)
    | .write => writeReg t.off t.data s
  else .fault (.busError t.off)

end Sys2Proof.Machine
end

