-- ==== Sys2Proof/Machine/HostProgram.lean ====
section
/-! DEFINITION. The host program (30_encoding.md R88 to R92): what each statement does, the command mnemonics (R87) and the
expansions of the pseudo-instructions (R90), with the words of an operand they load (41_modexp.md R113). It is the spec's notation
for what a host does, no instruction set of the block. -/

namespace Sys2Proof.Machine

/-- Why a host procedure or an expansion has no meaning for an input. -/
inductive HostRefusal where
  /-- a message of 2^61 bytes or more (R155, 93_implementation_defined.md U13) -/
  | messageTooLong
  /-- a negative operand, or one that needs more than N bits (R113, U14) -/
  | operandNotRepresentable
  deriving DecidableEq, Repr

/-- A host register (R89). -/
def hostReg (s : State) (k : HostReg) : Word := s.host.regs.get k

/-- The value of SRC (R88). -/
def srcValue (s : State) : Src → Word
  | .imm v => v
  | .reg k => hostReg s k

/-- The host pc moves to `target` (R92). -/
def hostGoto (target : Nat) (s : State) : State := s.setHost { s.host with pc := target }

/-- The host pc moves to the next statement (R92). -/
def hostNext (s : State) : State := hostGoto (s.host.pc + 1) s

/-- `$k <- v`, and on to the next statement (R89, R92). -/
def hostSetNext (k : HostReg) (v : Word) (s : State) : State :=
  hostNext (s.setHost { s.host with regs := s.host.regs.set k.val v })

/-- A branch: to `target` if `taken`, else to the next statement (R89, R92). -/
def hostBranch (taken : Bool) (target : Nat) (s : State) : State :=
  if taken then hostGoto target s else hostNext s

/-- One statement of a host program (R88, R89). -/
def hostStmt (st : Stmt) (s : State) : Outcome :=
  match st with
  | .wr off src => mapNext hostNext (busAccess (Txn.memWrite off 4 (srcValue s src)) s)
  | .rd k off => mapNext (fun s' => hostSetNext k s'.host.data s') (busAccess (Txn.memRead off 4) s)
  | .li k imm => .next (hostSetNext k imm s)
  | .mv k j => .next (hostSetNext k (hostReg s j) s)
  | .andi k j imm => .next (hostSetNext k (hostReg s j &&& imm) s)
  | .addi k j imm => .next (hostSetNext k (hostReg s j + imm) s)
  | .beq k imm target => .next (hostBranch (hostReg s k = imm) target s)
  | .bne k imm target => .next (hostBranch (hostReg s k ≠ imm) target s)
  | .beqr k j target => .next (hostBranch (hostReg s k = hostReg s j) target s)
  | .jmp target => .next (hostGoto target s)
  | .halt => .next (hostNext (s.setHost { s.host with halted := true }))

/-- The host program executes its next statement. A host that has halted, or has no next statement, makes no move (log
entry 6). -/
def hostStep (s : State) : Outcome :=
  if s.host.halted then .next s
  else match s.host.prog[s.host.pc]? with
    | none => .next s
    | some st => hostStmt st s

/-- The command mnemonics (R87): each is one write of the command word to CMD. -/
def stmtCommand (i : Instr) : Stmt := .wr offCmd (.imm (encode i))

/-- `poll OFF, MASK, VAL`, standing at statement `at_` of the program (R90). -/
def poll (at_ : Nat) (off : Offset) (mask val : Word) : List Stmt :=
  [.rd 15 off, .andi 15 15 mask, .bne 15 val at_]

/-- `wait.sha` (R90). -/
def waitSha (at_ : Nat) : List Stmt := poll at_ offStatus 0x00000001 0x00000000

/-- `wait.mexp` (R90). -/
def waitMexp (at_ : Nat) : List Stmt := poll at_ offStatus 0x00000004 0x00000000

/-- `clr.status` (R90). -/
def clrStatus : List Stmt := [.wr offStatus (.imm 0x0000001A)]

/-- One immediate write per word, at the offsets `off 0`, `off 1`, … (R90). DESIGN CHOICE: R90 does not say whether the words of
`ld.msg` and `ld.h` may also be host registers, which R88 admits in the place of SRC; here they are 32-bit immediates (log
entry 19). -/
def ldWords (off : Nat → Offset) (ws : List Word) : List Stmt :=
  ws.mapIdx fun i w => .wr (off i) (.imm w)

/-- `ld.msg` (R90). -/
def ldMsg (ws : Vector Word 16) : List Stmt := ldWords offMsg ws.toList

/-- `ld.h` (R90). -/
def ldH (ws : Vector Word 5) : List Stmt := ldWords offH ws.toList

/-- The words of a modular operand on an instance with NW = `nw`: a value that is negative or needs more than N bits is not
representable, and the host must reduce it first (R113; 90_conflicts.md C4). -/
def operandWords (nw : Nat) (v : Int) : Except HostRefusal (List Word) :=
  if 0 ≤ v ∧ v < 2 ^ operandBits nw then .ok (natToWords nw v.toNat) else .error .operandNotRepresentable

/-- The expansion of `ld.opa`, `ld.opb` and `ld.mod` at the offsets `off` (R90), on an instance with NW = `nw`: a value that is
not representable is refused by name (U14). -/
def ldOperand (off : Nat → Offset) (nw : Nat) (v : Int) : Except HostRefusal (List Stmt) :=
  (operandWords nw v).map (ldWords off)

/-- `ld.opa v` (R90). -/
def ldOpa (nw : Nat) (v : Int) : Except HostRefusal (List Stmt) := ldOperand offOpa nw v

/-- `ld.opb v` (R90). -/
def ldOpb (nw : Nat) (v : Int) : Except HostRefusal (List Stmt) := ldOperand offOpb nw v

/-- `ld.mod v` (R90). -/
def ldMod (nw : Nat) (v : Int) : Except HostRefusal (List Stmt) := ldOperand offMod nw v

/-- `rd.digest $a, $b, $c, $d, $e` (R90). -/
def rdDigest (a b c d e : HostReg) : List Stmt :=
  [.rd a (offH 0), .rd b (offH 1), .rd c (offH 2), .rd d (offH 3), .rd e (offH 4)]

/-- `rd.result $a, $b`, for NW = 2 (R90). -/
def rdResult (a b : HostReg) : List Stmt := [.rd a (offResult 0), .rd b (offResult 1)]

end Sys2Proof.Machine
end

