-- ==== Sys2Proof/Machine/HostProcedures.lean ====
section
/-! DEFINITION. The host procedures for whole messages (42_sha1.md R150 to R155, 20_memory.md R60, R61). They run on the host, not
in the block (00_scope.md R5). -/

namespace Sys2Proof.Machine

/-- be64(x): 8 bytes, most significant first (R150). -/
def be64 (x : Nat) : List Byte := (List.range 8).map fun i => BitVec.ofNat 8 (x / 2 ^ (8 * (7 - i)))

/-- The zero bytes of the padding: (55 - L) mod 64 (R150). -/
def padZeros (len : Nat) : Nat := ((55 - (len : Int)) % 64).toNat

/-- pad(M) (R150). -/
def pad (msg : List Byte) : List Byte :=
  msg ++ [0x80] ++ List.replicate (padZeros msg.length) 0x00 ++ be64 (8 * msg.length)

/-- The number of blocks of a message of `len` bytes (R151). -/
def blockCount (len : Nat) : Nat := (len + 8) / 64 + 1

/-- The word packed of bytes 4j..4j+3, the first in bits [31:24] (R60). -/
def packWord (bytes : List Byte) (j : Nat) : Word :=
  bytes.getD (4 * j) 0 ++ bytes.getD (4 * j + 1) 0 ++ bytes.getD (4 * j + 2) 0 ++ bytes.getD (4 * j + 3) 0

/-- Block `k` of a padded message (R151). -/
def messageBlock (bytes : List Byte) (k : Nat) : Vector Word 16 :=
  Vector.ofFn fun j => packWord bytes (16 * k + j.val)

/-- The blocks of a message (R151). -/
def messageBlocks (msg : List Byte) : List (Vector Word 16) :=
  (List.range (blockCount msg.length)).map (messageBlock (pad msg))

/-- SHA1(M) as a chaining value (R152): SHA1.INIT, then one SHA1.BLOCK per block. -/
def sha1Chain (msg : List Byte) : Vector Word 5 := (messageBlocks msg).foldl compress iv

/-- The 160-bit digest, H0 most significant (R61, R153). -/
def digest (h : Vector Word 5) : BitVec 160 := h[0] ++ h[1] ++ h[2] ++ h[3] ++ h[4]

/-- The 20 digest bytes: byte 4k + q is Hk[31-8q : 24-8q] (R61). -/
def digestBytes (h : Vector Word 5) : List Byte :=
  h.toList.flatMap fun w => [w.extractLsb' 24 8, w.extractLsb' 16 8, w.extractLsb' 8 8, w.extractLsb' 0 8]

/-- The hexadecimal digits, in lowercase (R154). -/
def hexDigits : List Char := ['0', '1', '2', '3', '4', '5', '6', '7', '8', '9', 'a', 'b', 'c', 'd', 'e', 'f']

/-- A hexadecimal digit (R154). -/
def hexDigit (n : Nat) : Char := hexDigits.getD n '0'

/-- The 40-character form: two digits a byte, high nibble first (R154). -/
def hexDigest (h : Vector Word 5) : List Char :=
  (digestBytes h).flatMap fun b => [hexDigit (b.toNat / 16), hexDigit (b.toNat % 16)]

/-- SHA1(M) for messages of fewer than 2^61 bytes; a longer one is refused (R155). -/
def sha1Message (msg : List Byte) : Except HostRefusal (BitVec 160) :=
  if msg.length < 2 ^ 61 then .ok (digest (sha1Chain msg)) else .error .messageTooLong

/-- The statements that load block `m` and run SHA1.BLOCK on it, put at statement `at_` of a program (R152). -/
def driveBlock (at_ : Nat) (m : Vector Word 16) : List Stmt :=
  ldMsg m ++ [stmtCommand .sha1Block] ++ waitSha (at_ + 17)

/-- SHA1.INIT, and then each block loaded, run and waited for (R152). -/
def driveBlocks (blocks : List (Vector Word 16)) : List Stmt :=
  blocks.foldl (fun p m => p ++ driveBlock p.length m) [stmtCommand .sha1Init]

/-- The check the host must make after the loop (R152): STATUS is read into $6, and unless ERR = 0 and SHA_DONE = 1 the program
goes on at statement `failed`. -/
def checkShaDone (failed : Nat) : List Stmt := [.rd 6 offStatus, .andi 6 6 0x00000012, .bne 6 0x00000002 failed]

/-- The host driver of R152 for the blocks of a message: the check, and then the digest read into $1..$5. DESIGN CHOICE: R152 does
not say what a host does where the check fails; this one halts without reading the digest, and leaves in $6 what the check saw:
0x00000002 exactly where it passed (log entry 20). -/
def sha1Driver (blocks : List (Vector Word 16)) : List Stmt :=
  driveBlocks blocks ++ checkShaDone ((driveBlocks blocks).length + 8) ++ rdDigest 1 2 3 4 5 ++ [.halt]

end Sys2Proof.Machine
end

