-- ==== Sys2Proof/Machine/Agents.lean ====
section
/-! DEFINITION. The step of each agent (00_scope.md R13, 10_state.md R20, R21), and who is next. -/

namespace Sys2Proof.Machine

/-- A hardware reset (R180): the same as SRST, without a bus write. -/
def hardwareReset (s : State) : State := resetAll s

/-- One step of an agent (R13). A unit that is idle takes no step (R20). -/
def agentStep (a : Agent) (s : State) : Outcome :=
  match a with
  | .program => hostStep s
  | .bus t => busAccess t s
  | .sha1 => .next (sha1Step s)
  | .mexp => .next (mexpStep s)
  | .reset => .next (hardwareReset s)

/-- Who takes the next step: the first of the schedule; where it is empty, whoever the free value names (R21). -/
def nextAgent (s : State) : Agent :=
  match s.schedule with
  | [] => Config.freeAgent s.turn
  | a :: _ => a

/-- The state with that choice made: the schedule loses its first entry, or the counter of the free value moves on. -/
def chosen (s : State) : State :=
  match s.schedule with
  | [] => { s with turn := s.turn + 1 }
  | _ :: rest => s.setSchedule rest

/-- The write that submits a command word (R28). -/
def cmdWrite (v : Word) : Txn := Txn.memWrite offCmd 4 v

end Sys2Proof.Machine
end

