-- ==== Sys2Proof/Machine/Step.lean ====
section
/-! DEFINITION. One step of the machine (00_scope.md R13, 10_state.md R21). -/

namespace Sys2Proof.Machine

/-- One atomic step of the agent that is next. -/
def step (s : State) : Host.Outcome State Fault Refusal := agentStep (nextAgent s) (chosen s)

/-- The state in which the next step is the host write of the command word `w` to CMD: a command reaches the block in no
other way (R28, R100; log entry 7). -/
def State.withFetchWord (s : State) (nbits w : Nat) : State :=
  s.setSchedule (.bus (cmdWrite (BitVec.ofNat 32 (w % 2 ^ nbits))) :: s.schedule)

end Sys2Proof.Machine
end

