-- ==== Sys2Proof/Safety.lean ====
section
/-! DEFINITION. The terms the statements use: the invariants of the machine, what a safe and an ended run are (70_reset_and_hazards.md
R193), weak fairness (10_state.md R21), and the ranges of the register map in numbers (10_state.md R25). -/

namespace Sys2Proof.Safety

open Sys2Proof Sys2Proof.Machine

/-- NW is in its range (R7) and each operand register file has NW words (R33). -/
def ParamInv (s : State) : Prop :=
  1 ≤ s.nw ∧ s.nw ≤ 64 ∧ s.mexp.opa.length = s.nw ∧ s.mexp.opb.length = s.nw ∧ s.mexp.mod.length = s.nw ∧
    s.mexp.result.length = s.nw

/-- ERRCODE is 0x00 exactly while ERR = 0 (R29, R160). -/
def ErrInv (s : State) : Prop := s.biu.err = false ↔ s.biu.errCode = .noError

/-- A busy unit's DONE bit is clear: acceptance cleared it, and only completion sets it (R29, R38). -/
def DoneInv (s : State) : Prop :=
  (shaBusy s = true → s.biu.shaDone = false) ∧ (mexpBusy s = true → s.biu.mexpDone = false)

/-- u.t is 0 while the SHA1 unit is idle (R40). -/
def ShaIdleInv (s : State) : Prop := s.sha.phase = .idle → s.sha.t.val = 0

/-- The ranges of u.m, u.b, u.e, u.r (R41, R121). -/
def MexpRangeInv (s : State) : Prop :=
  1 ≤ s.mexp.m ∧ s.mexp.m < 2 ^ operandBits s.nw ∧ s.mexp.b < s.mexp.m ∧ s.mexp.e < 2 ^ operandBits s.nw ∧
    s.mexp.r < s.mexp.m

/-- The ranges and relations of the state (R29, R33, R38, R40, R41). -/
def StateInv (s : State) : Prop := ParamInv s ∧ ErrInv s ∧ DoneInv s ∧ ShaIdleInv s ∧ MexpRangeInv s

/-- Before round `t`, the circular window holds w[j] at j mod 16, for the 16 words up to round max(t, 16) - 1 (R141). -/
def WindowHolds (m : Vector Word 16) (w : Vector Word 16) (t : Nat) : Prop :=
  ∀ j, j < max t 16 → max t 16 ≤ j + 16 → w[j % 16]'(by omega) = scheduleWord m j

/-- While the SHA1 unit runs, it is u.t rounds into the compression of the H and MSG that the registers hold (R141, R148). -/
def ShaTracks (s : State) : Prop :=
  s.sha.phase = .run →
    s.sha.work = roundsFrom s.sha.h s.sha.msg s.sha.t.val ∧ WindowHolds s.sha.msg s.sha.w s.sha.t.val

/-- While the MEXP unit is busy, it is on the way to the result for the OPA, OPB and MOD that the registers hold (R120). -/
def MexpTracks (s : State) : Prop :=
  (s.mexp.phase = .exp →
    s.mexp.m = modValue s ∧
      s.mexp.r * s.mexp.b ^ s.mexp.e % s.mexp.m = modExp (opaValue s) (opbValue s) (modValue s)) ∧
  (s.mexp.phase = .mul →
    s.mexp.m = modValue s ∧ s.mexp.r = modMul (opaValue s) (opbValue s) (modValue s))

/-- A step that does not end in a bus error (R162, R193). -/
def StepSafe (s : State) : Prop := ∀ r, step s ≠ .fault r

/-- The end of a run of a host program: it has executed `halt`, and both units are idle (R193). -/
def RunEnded (s : State) : Prop := s.host.halted = true ∧ shaBusy s = false ∧ mexpBusy s = false

/-- The agents `σ` take the steps of the run `ρ`, one after another, none of them a bus error (R21). -/
def IsRun (σ : Nat → Agent) (ρ : Nat → State) : Prop := ∀ n, agentStep (σ n) (ρ n) = .next (ρ (n + 1))

/-- Weak fairness (R21): a unit step that stays enabled is eventually taken. -/
def WeaklyFair (σ : Nat → Agent) (ρ : Nat → State) : Prop :=
  (∀ n, (∀ k, n ≤ k → shaBusy (ρ k) = true) → ∃ k, n ≤ k ∧ σ k = .sha1) ∧
  (∀ n, (∀ k, n ≤ k → mexpBusy (ρ k) = true) → ∃ k, n ≤ k ∧ σ k = .mexp)

/-- An agent that only runs a unit or reads: a unit step, or an admitted read. -/
def Quiet (a : Agent) : Prop := a = .sha1 ∨ a = .mexp ∨ ∃ t, a = .bus t ∧ admitted t = true ∧ t.dir = .read

/-- The offset of a word: divisible by 4 (R24). -/
def Aligned (off : Offset) : Prop := off.toNat % 4 = 0

/-- The offset of H0..H4 or MSG0..MSG15 (R25). -/
def ShaInput (off : Offset) : Prop :=
  Aligned off ∧ ((0x020 ≤ off.toNat ∧ off.toNat ≤ 0x030) ∨ (0x040 ≤ off.toNat ∧ off.toNat ≤ 0x07C))

/-- The offset of OPA[i], OPB[i] or MOD[i], i < NW (R25). -/
def MexpInput (nw : Nat) (off : Offset) : Prop :=
  Aligned off ∧
    ((0x100 ≤ off.toNat ∧ off.toNat < 0x100 + 4 * nw) ∨ (0x200 ≤ off.toNat ∧ off.toNat < 0x200 + 4 * nw) ∨
      (0x300 ≤ off.toNat ∧ off.toNat < 0x300 + 4 * nw))

/-- The offset of RESULT[i], i < NW (R25). -/
def ResultWord (nw : Nat) (off : Offset) : Prop :=
  Aligned off ∧ 0x400 ≤ off.toNat ∧ off.toNat < 0x400 + 4 * nw

/-- A reserved offset (R25): 0x014-0x01F, 0x034-0x03F, 0x080-0x0FF, the operand words with NW ≤ i < 64, and 0x500-0xFFF. -/
def ReservedOffset (nw : Nat) (off : Offset) : Prop :=
  Aligned off ∧
    ((0x014 ≤ off.toNat ∧ off.toNat ≤ 0x01F) ∨ (0x034 ≤ off.toNat ∧ off.toNat ≤ 0x03F) ∨
      (0x080 ≤ off.toNat ∧ off.toNat ≤ 0x0FF) ∨ (0x100 + 4 * nw ≤ off.toNat ∧ off.toNat < 0x200) ∨
      (0x200 + 4 * nw ≤ off.toNat ∧ off.toNat < 0x300) ∨ (0x300 + 4 * nw ≤ off.toNat ∧ off.toNat < 0x400) ∨
      (0x400 + 4 * nw ≤ off.toNat ∧ off.toNat < 0x500) ∨ (0x500 ≤ off.toNat ∧ off.toNat ≤ 0xFFF))

/-- The step of agent `a` in state `s` writes the value `v` to the word at `off`: a bus write, or `wr` of the host program. -/
def WritesWord (a : Agent) (s : State) (off : Offset) (v : Word) : Prop :=
  (∃ t, a = .bus t ∧ admitted t = true ∧ t.dir = .write ∧ t.off = off ∧ t.data = v) ∨
  (a = .program ∧ s.host.halted = false ∧ off.toNat % 4 = 0 ∧
    ∃ src, s.host.prog[s.host.pc]? = some (.wr off src) ∧ srcValue s src = v)

end Sys2Proof.Safety
end

