-- ==== Sys2Proof/Certificates/Slice0/Obligations.lean ====
section
/-! DEFINITION. The statements for the provers, each from the numbered rules of spec/ or from its sections. A docstring names the
rule; R<n> is a numbered rule of spec/. -/

open Sys2Proof Sys2Proof.Machine Sys2Proof.Safety

/-! ### The step and the decoder -/

/-- R100, R37: when the access that is next writes a word to CMD that decodes to a command, the step is the meaning of that
command, in the state in which that access has been taken off the schedule. -/
def Obligations.StepRunsTheDecodedCommand : Prop :=
  ∀ (s : State) (rest : List Agent) (w : Word) (i : Instr),
    s.schedule = .bus (cmdWrite w) :: rest → decode w = .command i → step s = exec i (s.setSchedule rest)

/-- R13, R21: a step is the step of one agent: the first of the schedule, whichever that is; and where the schedule is empty,
of some agent, with the turn counted. Log entry 2 names the schedule and the turn: they are the model's. -/
def Obligations.StepIsTheStepOfTheNextAgent : Prop :=
  (∀ (s : State) (a : Agent) (rest : List Agent), s.schedule = a :: rest → step s = agentStep a (s.setSchedule rest)) ∧
  (∀ s : State, s.schedule = [] → ∃ a, step s = agentStep a { s with turn := s.turn + 1 })

/-- R83: an illegal command word raises ILLEGAL_CMD and does nothing else. -/
def Obligations.IllegalWordOnlyRaisesIllegalCmd : Prop :=
  ∀ (s : State) (w : Word),
    (w.toNat / 256 ≠ 0 ∨ w.toNat % 256 ∉ [0x00, 0x01, 0x10, 0x11, 0x1F, 0x20, 0x21, 0x2F]) →
    command w s = .next { s with biu := { s.biu with
      err := true, errCode := if s.biu.err then s.biu.errCode else .illegalCmd } }

/-- Decoding and encoding agree in both directions, on all 2^32 words (R82, R85). -/
def Obligations.DecodeEncodeAgreeBothWays : Prop :=
  ∀ (i : Instr) (w : Word), decode w = .command i ↔ encode i = w

/-- The eight words of the opcode map (R82). -/
def Obligations.DecodesTheOpcodeMapWords : Prop :=
  decode 0x00000000#32 = .command .nop ∧ decode 0x00000001#32 = .command .srst ∧
  decode 0x00000010#32 = .command .sha1Init ∧ decode 0x00000011#32 = .command .sha1Block ∧
  decode 0x0000001F#32 = .command .sha1Abort ∧ decode 0x00000020#32 = .command .mexpExp ∧
  decode 0x00000021#32 = .command .mexpMul ∧ decode 0x0000002F#32 = .command .mexpAbort

/-! ### The commands -/

/-- R102: NOP, its word, and the words with OP = 0x00 and RSVD ≠ 0, which are illegal. -/
def Obligations.NopChangesNothing : Prop :=
  (∀ s : State, exec .nop s = .next s) ∧ decode 0x00000000#32 = .command .nop ∧
  (∀ w : Word, w.toNat % 256 = 0x00 → w.toNat / 256 ≠ 0 → ∃ y, decode w = .illegal y)

/-- R101: SRST gives every register and every unit field its reset value, in every state; STATUS reads 0 and the interrupt
output is low; a hardware reset does the same; a second SRST changes nothing; with RSVD ≠ 0 the word only raises ILLEGAL_CMD. That
both leave the host, its program and the schedule is the model's reading, log entry 15; R101 and R180 speak of the block only. -/
def Obligations.SrstPutsTheBlockInItsResetState : Prop :=
  (∀ s : State, ∃ t, exec .srst s = .next t ∧
    t = { s with
      biu := ⟨0, false, false, false, .noError⟩
      sha := ⟨#v[0x67452301, 0xEFCDAB89, 0x98BADCFE, 0x10325476, 0xC3D2E1F0], Vector.replicate 16 0, .idle, 0,
        ⟨0, 0, 0, 0, 0⟩, Vector.replicate 16 0⟩
      mexp := ⟨List.replicate s.nw 0, List.replicate s.nw 0, List.replicate s.nw 0, List.replicate s.nw 0, .idle,
        1, 0, 0, 0⟩ } ∧
    readReg t offStatus = 0 ∧ irq t = false ∧ agentStep .reset s = .next t ∧ exec .srst t = .next t) ∧
  decode 0x00000001#32 = .command .srst ∧
  (∀ (s : State) (w : Word), w.toNat % 256 = 0x01 → w.toNat / 256 ≠ 0 →
    command w s = .next (raiseBlockError .illegalCmd s))

/-- R161: what raising a BlockError does: the first error is kept, and nothing else changes; and a write that raises one completes
on the bus as any admitted write does. -/
def Obligations.RaiseKeepsTheFirstErrorAndTouchesNothingElse : Prop :=
  ∀ (c : ErrCode) (s : State),
    (raiseBlockError c s).biu.err = true ∧
    (s.biu.err = false → (raiseBlockError c s).biu.errCode = c) ∧
    (s.biu.err = true → (raiseBlockError c s).biu.errCode = s.biu.errCode) ∧
    raiseBlockError c s = { s with biu := { s.biu with
      err := (raiseBlockError c s).biu.err, errCode := (raiseBlockError c s).biu.errCode } } ∧
    (∀ (off : Offset) (v : Word), off.toNat % 4 = 0 → ∃ t, busAccess (Txn.memWrite off 4 v) s = .next t)

/-- R144: SHA1.INIT loads the IV into H0..H4 in one step and changes nothing else; while the SHA1 unit is busy it is rejected;
with RSVD ≠ 0 the word is illegal; and writing the IV by hand, word by word, into H0..H4 of an idle unit does the same. -/
def Obligations.Sha1InitLoadsTheIv : Prop :=
  (∀ s : State, s.sha.phase = .idle → exec .sha1Init s = .next { s with sha := { s.sha with
    h := #v[0x67452301, 0xEFCDAB89, 0x98BADCFE, 0x10325476, 0xC3D2E1F0] } }) ∧
  (∀ s : State, s.sha.phase = .run → exec .sha1Init s = .next (raiseBlockError .shaBusy s)) ∧
  decode 0x00000010#32 = .command .sha1Init ∧
  (∀ (s : State) (w : Word), w.toNat % 256 = 0x10 → w.toNat / 256 ≠ 0 →
    command w s = .next (raiseBlockError .illegalCmd s)) ∧
  (∀ s : State, s.sha.phase = .idle → ∃ s0 s1 s2 s3 s4,
    busAccess (Txn.memWrite 0x020 4 0x67452301) s = .next s0 ∧ busAccess (Txn.memWrite 0x024 4 0xEFCDAB89) s0 = .next s1 ∧
    busAccess (Txn.memWrite 0x028 4 0x98BADCFE) s1 = .next s2 ∧ busAccess (Txn.memWrite 0x02C 4 0x10325476) s2 = .next s3 ∧
    busAccess (Txn.memWrite 0x030 4 0xC3D2E1F0) s3 = .next s4 ∧ exec .sha1Init s = .next s4)

/-- R140: the acceptance of SHA1.BLOCK copies MSG and H, starts at round 0, and clears SHA_DONE; it changes nothing else. While
the unit is busy the command is rejected. No step of the unit writes MSG. -/
def Obligations.Sha1BlockIsAcceptedOrRejected : Prop :=
  (∀ s : State, s.sha.phase = .idle → exec .sha1Block s = .next { s with
    biu := { s.biu with shaDone := false }
    sha := { s.sha with
      w := s.sha.msg
      work := ⟨s.sha.h[0], s.sha.h[1], s.sha.h[2], s.sha.h[3], s.sha.h[4]⟩
      t := 0
      phase := .run } }) ∧
  (∀ s : State, s.sha.phase = .run → exec .sha1Block s = .next (raiseBlockError .shaBusy s)) ∧
  (∀ s t : State, agentStep .sha1 s = .next t → t.sha.msg = s.sha.msg)

/-- R146: SHA1.ABORT discards a running block, H0..H4, MSG and SHA_DONE staying as they are, and does nothing when the unit is
idle; after it SHA_BUSY and SHA_ROUND read 0, and SHA_DONE is 0 where acceptance had cleared it (`DoneInv`). -/
def Obligations.Sha1AbortDiscardsTheRunningBlock : Prop :=
  (∀ s : State, s.sha.phase = .run → exec .sha1Abort s = .next { s with sha :=
    ⟨s.sha.h, s.sha.msg, .idle, 0, ⟨0, 0, 0, 0, 0⟩, Vector.replicate 16 0⟩ }) ∧
  (∀ s : State, s.sha.phase = .idle → exec .sha1Abort s = .next s) ∧
  (∀ s : State, s.sha.phase = .run → DoneInv s → ∃ t, exec .sha1Abort s = .next t ∧
    shaBusy t = false ∧ t.sha.t.val = 0 ∧ t.biu.shaDone = false) ∧
  decode 0x0000001F#32 = .command .sha1Abort

/-- The acceptance of MEXP.EXP (R116): OPA is reduced modulo MOD, and MEXP_DONE is cleared; nothing else changes. -/
def Obligations.MexpExpIsAccepted : Prop :=
  ∀ s : State, s.mexp.phase = .idle → modValue s ≠ 0 → exec .mexpExp s = .next { s with
    biu := { s.biu with mexpDone := false }
    mexp := { s.mexp with
      m := modValue s
      b := opaValue s % modValue s
      e := opbValue s
      r := 1 % modValue s
      phase := .exp } }

/-- The acceptance of MEXP.MUL (R117): the exact product is reduced modulo MOD, and MEXP_DONE is cleared; nothing else changes. -/
def Obligations.MexpMulIsAccepted : Prop :=
  ∀ s : State, s.mexp.phase = .idle → modValue s ≠ 0 → exec .mexpMul s = .next { s with
    biu := { s.biu with mexpDone := false }
    mexp := { s.mexp with
      m := modValue s
      b := 0
      e := 0
      r := opaValue s * opbValue s % modValue s
      phase := .mul } }

/-- R118: MEXP.ABORT discards a running command, RESULT, ERR and MEXP_DONE staying as they are, and does nothing when the unit
is idle; after it MEXP_BUSY is 0, and MEXP_DONE is 0 where acceptance had cleared it (`DoneInv`). -/
def Obligations.MexpAbortDiscardsTheRunningCommand : Prop :=
  (∀ s : State, s.mexp.phase ≠ .idle → exec .mexpAbort s = .next { s with mexp := { s.mexp with
    phase := .idle, m := 1, b := 0, e := 0, r := 0 } }) ∧
  (∀ s : State, s.mexp.phase = .idle → exec .mexpAbort s = .next s) ∧
  (∀ s : State, s.mexp.phase ≠ .idle → DoneInv s → ∃ t, exec .mexpAbort s = .next t ∧
    mexpBusy t = false ∧ t.biu.mexpDone = false) ∧
  decode 0x0000002F#32 = .command .mexpAbort

/-- Where MEXP.EXP and MEXP.MUL are rejected (R100, R113): MEXP_BUSY before MOD_ZERO, nothing else changed. -/
def Obligations.MexpCommandsAreRejectedInOrder : Prop :=
  ∀ (s : State) (i : Instr), i = .mexpExp ∨ i = .mexpMul →
    (s.mexp.phase ≠ .idle → exec i s = .next (raiseBlockError .mexpBusy s)) ∧
    (s.mexp.phase = .idle → modValue s = 0 → exec i s = .next (raiseBlockError .modZero s))

/-- The frame of the commands. No command changes NW (R7), the host, or the schedule: that SRST leaves the last two is the model's
reading, log entry 15. But for SRST, none changes IRQ_EN, MSG, OPA, OPB, MOD or RESULT (R140, R144, R146, R116 to R118); a command
of one unit leaves the other unit and its DONE bit (R2, R100); and the two ABORTs leave all of STATUS's stored bits (R118, R146). -/
def Obligations.CommandFrames : Prop :=
  ∀ (i : Instr) (s t : State), exec i s = .next t →
    (t.nw = s.nw ∧ t.host = s.host ∧ t.schedule = s.schedule ∧ t.turn = s.turn) ∧
    (i ≠ .srst → t.biu.irqEn = s.biu.irqEn ∧ t.sha.msg = s.sha.msg ∧ t.mexp.opa = s.mexp.opa ∧ t.mexp.opb = s.mexp.opb ∧
      t.mexp.mod = s.mexp.mod ∧ t.mexp.result = s.mexp.result) ∧
    (i = .sha1Init ∨ i = .sha1Block ∨ i = .sha1Abort → t.mexp = s.mexp ∧ t.biu.mexpDone = s.biu.mexpDone) ∧
    (i = .mexpExp ∨ i = .mexpMul ∨ i = .mexpAbort → t.sha = s.sha ∧ t.biu.shaDone = s.biu.shaDone) ∧
    (i = .sha1Abort ∨ i = .mexpAbort → t.biu = s.biu)

/-- The units share nothing but STATUS and IRQ_EN (R2, D26): what a command or a unit step of one unit makes of that unit does
not depend on the other unit or on the BIU. -/
def Obligations.UnitsDoNotDependOnEachOther : Prop :=
  (∀ (i : Instr) (s s' t t' : State), i = .mexpExp ∨ i = .mexpMul ∨ i = .mexpAbort →
    s.nw = s'.nw → s.mexp = s'.mexp → exec i s = .next t → exec i s' = .next t' → t.mexp = t'.mexp) ∧
  (∀ (i : Instr) (s s' t t' : State), i = .sha1Init ∨ i = .sha1Block ∨ i = .sha1Abort →
    s.sha = s'.sha → exec i s = .next t → exec i s' = .next t' → t.sha = t'.sha) ∧
  (∀ s s' : State, s.nw = s'.nw → s.mexp = s'.mexp → (mexpStep s).mexp = (mexpStep s').mexp) ∧
  (∀ s s' : State, s.sha = s'.sha → (sha1Step s).sha = (sha1Step s').sha)

/-! ### The unit steps -/

/-- R132: the round functions and the round constants. -/
def Obligations.RoundFunctionsAndConstants : Prop :=
  ∀ (t : Nat) (b c d : Word),
    (t < 20 → roundF t b c d = (b &&& c) ||| (~~~b &&& d) ∧ roundK t = 0x5A827999#32) ∧
    (20 ≤ t → t < 40 → roundF t b c d = b ^^^ c ^^^ d ∧ roundK t = 0x6ED9EBA1#32) ∧
    (40 ≤ t → t < 60 → roundF t b c d = (b &&& c) ||| (b &&& d) ||| (c &&& d) ∧ roundK t = 0x8F1BBCDC#32) ∧
    (60 ≤ t → t < 80 → roundF t b c d = b ^^^ c ^^^ d ∧ roundK t = 0xCA62C1D6#32)

/-- R10: rotl32(x, n) for 0 < n < 32, on numbers. -/
def Obligations.RotationOnNumbers : Prop :=
  ∀ (x : Word) (n : Nat), 0 < n → n < 32 →
    (rotl32 x n).toNat = (x.toNat * 2 ^ n) % 2 ^ 32 + x.toNat / 2 ^ (32 - n)

/-- R133: the message schedule. -/
def Obligations.MessageScheduleRecurrence : Prop :=
  ∀ (m : Vector Word 16) (j : Nat),
    (∀ h : j < 16, scheduleWord m j = m[j]) ∧
    (16 ≤ j → j < 80 → scheduleWord m j =
      rotl32 (scheduleWord m (j - 3) ^^^ scheduleWord m (j - 8) ^^^ scheduleWord m (j - 14) ^^^ scheduleWord m (j - 16)) 1)

/-- R141: the round step of the running unit, in every state: the schedule word out of the window, the window, the working
variables and u.t; nothing else changes. And where the unit has been running since an acceptance (`ShaTracks`), the schedule
word is w[u.t] of the block in MSG. -/
def Obligations.ShaRoundStep : Prop :=
  (∀ (s : State) (_ : s.sha.phase = .run) (ht : s.sha.t.val < 80), ∃ wt : Word,
    (s.sha.t.val < 16 → wt = s.sha.w.toList.getD s.sha.t.val 0) ∧
    (16 ≤ s.sha.t.val → wt = rotl32 (s.sha.w.toList.getD ((s.sha.t.val - 3) % 16) 0 ^^^
      s.sha.w.toList.getD ((s.sha.t.val - 8) % 16) 0 ^^^ s.sha.w.toList.getD ((s.sha.t.val - 14) % 16) 0 ^^^
      s.sha.w.toList.getD (s.sha.t.val % 16) 0) 1) ∧
    agentStep .sha1 s = .next { s with sha := { s.sha with
      work :=
        ⟨rotl32 s.sha.work.a 5 + roundF s.sha.t.val s.sha.work.b s.sha.work.c s.sha.work.d + s.sha.work.e +
          roundK s.sha.t.val + wt,
         s.sha.work.a, rotl32 s.sha.work.b 30, s.sha.work.c, s.sha.work.d⟩
      w := if s.sha.t.val < 16 then s.sha.w else s.sha.w.set (s.sha.t.val % 16) wt
      t := ⟨s.sha.t.val + 1, by omega⟩ } }) ∧
  (∀ s t : State, ShaTracks s → s.sha.phase = .run → s.sha.t.val < 80 → agentStep .sha1 s = .next t →
    t.sha.w.toList.getD (s.sha.t.val % 16) 0 = scheduleWord s.sha.msg s.sha.t.val)

/-- R143: the completion step adds the working variables into H0..H4, ends the run and sets SHA_DONE. -/
def Obligations.ShaCompletionStep : Prop :=
  ∀ s : State, s.sha.phase = .run → s.sha.t.val = 80 → agentStep .sha1 s = .next { s with
    biu := { s.biu with shaDone := true }
    sha := { s.sha with
      h := #v[s.sha.h[0] + s.sha.work.a, s.sha.h[1] + s.sha.work.b, s.sha.h[2] + s.sha.work.c,
        s.sha.h[3] + s.sha.work.d, s.sha.h[4] + s.sha.work.e]
      t := 0
      phase := .idle } }

/-- The MEXP unit step (R114): one exponent bit while EXP has bits left; else the completion. R114 does not enable the step of an
idle unit; that such a step changes nothing is the model's choice, log entry 9. -/
def Obligations.MexpUnitStep : Prop :=
  (∀ s : State, s.mexp.phase = .exp → s.mexp.e ≠ 0 → agentStep .mexp s = .next { s with mexp := { s.mexp with
    r := if s.mexp.e.testBit 0 then (s.mexp.r * s.mexp.b) % s.mexp.m else s.mexp.r
    b := (s.mexp.b * s.mexp.b) % s.mexp.m
    e := s.mexp.e / 2 } }) ∧
  (∀ s : State, s.mexp.phase = .mul ∨ (s.mexp.phase = .exp ∧ s.mexp.e = 0) → agentStep .mexp s = .next (mexpComplete s)) ∧
  (∀ s : State, s.mexp.phase = .idle → agentStep .mexp s = .next s)

/-- R115: completion writes all NW words of RESULT, ends the command and sets MEXP_DONE; and RESULT changes in no other step
than a completion, a hardware reset or an SRST. -/
def Obligations.ResultIsWrittenOnlyByCompletionAndReset : Prop :=
  (∀ s : State, mexpComplete s = { s with
    biu := { s.biu with mexpDone := true }
    mexp := { s.mexp with result := natToWords s.nw s.mexp.r, phase := .idle } }) ∧
  (∀ (a : Agent) (s t : State), agentStep a s = .next t → t.mexp.result ≠ s.mexp.result →
    (a = .mexp ∧ mexpBusy s = true ∧ mexpBusy t = false) ∨ a = .reset ∨ WritesWord a s offCmd 0x00000001)

/-- H0..H4 change only by a host write to them, SHA1.INIT, the completion of a block, SRST or a hardware reset (R31); MSG only
by a host write, SRST or a reset (R32). -/
def Obligations.ChainingValueChangesOnlyAsListed : Prop :=
  ∀ (a : Agent) (s t : State), agentStep a s = .next t →
    (t.sha.h ≠ s.sha.h →
      (a = .sha1 ∧ shaBusy s = true ∧ s.sha.t.val = 80) ∨ a = .reset ∨ WritesWord a s offCmd 0x00000001 ∨
      (shaBusy s = false ∧ (WritesWord a s offCmd 0x00000010 ∨
        ∃ (k : Fin 5) (v : Word), WritesWord a s (offH k.val) v ∧ t.sha.h = s.sha.h.set k.val v))) ∧
    (t.sha.msg ≠ s.sha.msg →
      a = .reset ∨ WritesWord a s offCmd 0x00000001 ∨
      (shaBusy s = false ∧
        ∃ (j : Fin 16) (v : Word), WritesWord a s (offMsg j.val) v ∧ t.sha.msg = s.sha.msg.set j.val v))

/-! ### What the commands compute -/

/-- R145, R147, R148: from an idle SHA1 unit, SHA1.BLOCK and then 81 SHA1 unit steps give H = Compress(H, MSG), with the unit
idle and SHA_DONE set; after the acceptance and k < 81 of the steps the unit is busy, u.t is k, and H and MSG stand. The steps are
put in the schedule, the model's own (log entry 2). -/
def Obligations.BlockCommandComputesCompress : Prop :=
  ∀ (s : State) (rest : List Agent), s.sha.phase = .idle →
    s.schedule = .bus (cmdWrite 0x00000011) :: (List.replicate 81 .sha1 ++ rest) →
    (∃ t, Host.Core.run core 82 s = .next t ∧
      t.sha.h = compress s.sha.h s.sha.msg ∧ t.sha.msg = s.sha.msg ∧ t.sha.phase = .idle ∧ t.sha.t.val = 0 ∧
      t.biu = { s.biu with shaDone := true } ∧ t.mexp = s.mexp ∧ t.nw = s.nw ∧ t.host = s.host ∧ t.schedule = rest) ∧
    (∀ k, k < 81 → ∃ t, Host.Core.run core (k + 1) s = .next t ∧
      t.sha.phase = .run ∧ t.sha.t.val = k ∧ t.sha.h = s.sha.h ∧ t.sha.msg = s.sha.msg ∧
      t.biu = { s.biu with shaDone := false })

/-- R116, R119, R120: from an idle MEXP unit with MOD ≠ 0, MEXP.EXP and then bitlen(OPB) + 1 MEXP unit steps give
RESULT = ModExp(OPA, OPB, MOD), with the unit idle and MEXP_DONE set; before the last of the steps the unit is busy and RESULT
stands. The steps are put in the schedule, the model's own (log entry 2). -/
def Obligations.ExpCommandComputesModExp : Prop :=
  ∀ (s : State) (rest : List Agent), ParamInv s → s.mexp.phase = .idle → modValue s ≠ 0 →
    s.schedule = .bus (cmdWrite 0x00000020) :: (List.replicate (bitlen (opbValue s) + 1) .mexp ++ rest) →
    (∃ t, Host.Core.run core (bitlen (opbValue s) + 2) s = .next t ∧
      resultValue t = modExp (opaValue s) (opbValue s) (modValue s) ∧ t.mexp.result.length = s.nw ∧
      t.mexp.phase = .idle ∧ t.biu = { s.biu with mexpDone := true } ∧
      t.mexp.opa = s.mexp.opa ∧ t.mexp.opb = s.mexp.opb ∧ t.mexp.mod = s.mexp.mod ∧ t.sha = s.sha ∧ t.nw = s.nw ∧
      t.host = s.host ∧ t.schedule = rest) ∧
    (∀ k, k < bitlen (opbValue s) + 1 → ∃ t, Host.Core.run core (k + 1) s = .next t ∧
      mexpBusy t = true ∧ t.mexp.result = s.mexp.result ∧ t.biu = { s.biu with mexpDone := false })

/-- R117, R119: from an idle MEXP unit with MOD ≠ 0, MEXP.MUL and one MEXP unit step give RESULT = ModMul(OPA, OPB, MOD). The steps
are put in the schedule, the model's own (log entry 2). -/
def Obligations.MulCommandComputesModMul : Prop :=
  ∀ (s : State) (rest : List Agent), ParamInv s → s.mexp.phase = .idle → modValue s ≠ 0 →
    s.schedule = .bus (cmdWrite 0x00000021) :: .mexp :: rest →
    ∃ t, Host.Core.run core 2 s = .next t ∧
      resultValue t = modMul (opaValue s) (opbValue s) (modValue s) ∧ t.mexp.result.length = s.nw ∧
      t.mexp.phase = .idle ∧ t.biu = { s.biu with mexpDone := true } ∧ t.sha = s.sha ∧ t.schedule = rest

/-- R21, R190: both units started together; then, in every interleaving of unit steps and reads that gives the SHA1 unit at
least 81 steps and the MEXP unit at least bitlen(OPB) + 1, both results stand at the end. The interleaving is put in the schedule,
the model's own (log entry 2), and steps of a unit that has finished are pauses (log entry 9). -/
def Obligations.EveryInterleavingGivesBothResults : Prop :=
  ∀ (s : State) (as rest : List Agent), ParamInv s → s.sha.phase = .idle → s.mexp.phase = .idle → modValue s ≠ 0 →
    (∀ a ∈ as, Quiet a) → 81 ≤ as.count .sha1 → bitlen (opbValue s) + 1 ≤ as.count .mexp →
    s.schedule = .bus (cmdWrite 0x00000011) :: .bus (cmdWrite 0x00000020) :: (as ++ rest) →
    ∃ t, Host.Core.run core (as.length + 2) s = .next t ∧ t.schedule = rest ∧
      t.sha.h = compress s.sha.h s.sha.msg ∧ resultValue t = modExp (opaValue s) (opbValue s) (modValue s) ∧
      shaBusy t = false ∧ mexpBusy t = false ∧ t.biu = { s.biu with shaDone := true, mexpDone := true }

/-- R21: under weak fairness a busy unit does not stay busy for ever, whatever the other agents do. Weak fairness is a predicate on
runs (log entry 9). -/
def Obligations.BusyUnitsFinishUnderWeakFairness : Prop :=
  ∀ (σ : Nat → Agent) (ρ : Nat → State), IsRun σ ρ → WeaklyFair σ ρ →
    ∀ n, (∃ k, n ≤ k ∧ shaBusy (ρ k) = false) ∧ (∃ k, n ≤ k ∧ mexpBusy (ρ k) = false)

/-! ### Invariants -/

/-- Every step keeps the ranges and relations of the state. -/
def Obligations.StateInvariantKeptByEveryStep : Prop :=
  ∀ s t : State, StateInv s → step s = .next t → StateInv t

/-- Every step keeps: a running block is u.t rounds into Compress of the H and MSG that stand in the registers (R141, R148). -/
def Obligations.RunningBlockStaysOnTheWayToCompress : Prop :=
  ∀ s t : State, ShaTracks s → step s = .next t → ShaTracks t

/-- Every step keeps: a running MEXP command is on the way to the result for the OPA, OPB and MOD that stand in the registers
(R120). -/
def Obligations.RunningCommandStaysOnTheWayToItsResult : Prop :=
  ∀ s t : State, MexpTracks s → step s = .next t → MexpTracks t

/-- The invariants hold right after reset, for every NW from 1 to 64, and so for `State.reset`, whose NW = 2 is the model's
choice (log entry 1). -/
def Obligations.InvariantsHoldAtReset : Prop :=
  (∀ nw, 1 ≤ nw → nw ≤ 64 →
    StateInv (State.resetOf nw) ∧ ShaTracks (State.resetOf nw) ∧ MexpTracks (State.resetOf nw)) ∧
  State.reset = State.resetOf 2

/-- R45: the value of every register and every unit field after reset, for every NW: the fields, what a read of each word
of the window returns, and that SRST and a hardware reset leave a block with these values, from any state. -/
def Obligations.ResetValues : Prop :=
  ∀ nw, 1 ≤ nw → nw ≤ 64 →
    ((State.resetOf nw).sha.phase = .idle ∧ (State.resetOf nw).sha.t.val = 0 ∧
      (State.resetOf nw).sha.work = ⟨0, 0, 0, 0, 0⟩ ∧ (State.resetOf nw).sha.w = Vector.replicate 16 0 ∧
      (State.resetOf nw).mexp.phase = .idle ∧ (State.resetOf nw).mexp.m = 1 ∧ (State.resetOf nw).mexp.b = 0 ∧
      (State.resetOf nw).mexp.e = 0 ∧ (State.resetOf nw).mexp.r = 0 ∧ irq (State.resetOf nw) = false) ∧
    (∀ off : Offset, Aligned off → readReg (State.resetOf nw) off =
      if off = 0x000 then 0x434E5301
      else if off = 0x004 then BitVec.ofNat 32 nw
      else if off = 0x020 then 0x67452301
      else if off = 0x024 then 0xEFCDAB89
      else if off = 0x028 then 0x98BADCFE
      else if off = 0x02C then 0x10325476
      else if off = 0x030 then 0xC3D2E1F0
      else 0) ∧
    (∀ s : State, s.nw = nw → ∃ t, exec .srst s = .next t ∧ agentStep .reset s = .next t ∧
      t.nw = (State.resetOf nw).nw ∧ t.biu = (State.resetOf nw).biu ∧ t.sha = (State.resetOf nw).sha ∧
      t.mexp = (State.resetOf nw).mexp)

/-- NW is fixed for an instance (R7): no step changes it. -/
def Obligations.NoStepChangesTheInstance : Prop :=
  ∀ s t : State, step s = .next t → t.nw = s.nw

/-- While the SHA1 unit stays busy, H0..H4 and MSG keep their values, and every read of them returns what it returned before, and
SHA_ROUND reads u.t and does not go back (R142, U1); while the MEXP unit stays busy, its operands, the captured modulus and RESULT
keep their values, and so do the reads of them (R35, R114, R115). Whatever happens. And no read of any offset shows anything of a
unit's internal state but its BUSY bit and u.t (R44). -/
def Obligations.NothingPartialShowsWhileAUnitIsBusy : Prop :=
  (∀ s t : State, step s = .next t →
    (shaBusy s = true → shaBusy t = true →
      t.sha.h = s.sha.h ∧ t.sha.msg = s.sha.msg ∧ s.sha.t.val ≤ t.sha.t.val ∧
      ((readReg t 0x00C).extractLsb' 16 7).toNat = t.sha.t.val ∧ ∀ off, ShaInput off → readReg t off = readReg s off) ∧
    (mexpBusy s = true → mexpBusy t = true →
      t.mexp.opa = s.mexp.opa ∧ t.mexp.opb = s.mexp.opb ∧ t.mexp.mod = s.mexp.mod ∧
      t.mexp.result = s.mexp.result ∧ t.mexp.m = s.mexp.m ∧
      ∀ off, MexpInput s.nw off ∨ ResultWord s.nw off → readReg t off = readReg s off)) ∧
  (∀ (s : State) (work : Work) (w : Vector Word 16) (m b e r : Nat) (off : Offset),
    readReg { s with sha := { s.sha with work := work, w := w }, mexp := { s.mexp with m := m, b := b, e := e, r := r } } off =
      readReg s off)

/-! ### Errors and the interrupt -/

/-- R165: no step both completes a command and raises an error: a step that ends a busy unit's command with its DONE bit set is
a unit step and leaves ERR and ERRCODE, and a step that sets ERR is a write, by a bus master or the host program. -/
def Obligations.CompletionAndErrorNeverMeet : Prop :=
  ∀ (a : Agent) (s t : State), agentStep a s = .next t →
    (s.biu.shaDone = false → t.biu.shaDone = true → a = .sha1 ∧ t.biu.err = s.biu.err ∧ t.biu.errCode = s.biu.errCode) ∧
    (s.biu.mexpDone = false → t.biu.mexpDone = true → a = .mexp ∧ t.biu.err = s.biu.err ∧ t.biu.errCode = s.biu.errCode) ∧
    (s.biu.err = false → t.biu.err = true →
      (∃ off v, WritesWord a s off v) ∧ t.biu.shaDone = s.biu.shaDone ∧ t.biu.mexpDone = s.biu.mexpDone)

/-- The first error is kept (R161, R165): over any step that leaves ERR set, ERRCODE does not change. -/
def Obligations.ErrCodeStaysWhileErrStays : Prop :=
  ∀ s t : State, step s = .next t → s.biu.err = true → t.biu.err = true → t.biu.errCode = s.biu.errCode

/-- IRQ_EN is changed only by a host write to it, SRST and a hardware reset (R167). -/
def Obligations.InterruptEnablesChangeOnlyAsListed : Prop :=
  ∀ (a : Agent) (s t : State), agentStep a s = .next t → t.biu.irqEn ≠ s.biu.irqEn →
    a = .reset ∨ WritesWord a s offCmd 0x00000001 ∨
    ∃ v, WritesWord a s offIrqEn v ∧ t.biu.irqEn = v.extractLsb' 0 3

/-- R43: the derived fields of STATUS, and STATUS's stored bits and zeros beside them (R29), as a read of STATUS shows them. -/
def Obligations.StatusShowsTheState : Prop :=
  ∀ s : State,
    (readReg s offStatus).getLsbD 0 = shaBusy s ∧
    (readReg s offStatus).getLsbD 1 = s.biu.shaDone ∧
    (readReg s offStatus).getLsbD 2 = mexpBusy s ∧
    (readReg s offStatus).getLsbD 3 = s.biu.mexpDone ∧
    (readReg s offStatus).getLsbD 4 = s.biu.err ∧
    (readReg s offStatus).getLsbD 5 = irq s ∧
    (readReg s offStatus).extractLsb' 6 2 = 0 ∧
    (readReg s offStatus).extractLsb' 8 8 = s.biu.errCode.byte ∧
    ((readReg s offStatus).extractLsb' 16 7).toNat = s.sha.t.val ∧
    (readReg s offStatus).extractLsb' 23 9 = 0 ∧
    irq s = (s.biu.shaDone && s.biu.irqEn.getLsbD 0 || s.biu.mexpDone && s.biu.irqEn.getLsbD 1 ||
      s.biu.err && s.biu.irqEn.getLsbD 2)

/-- A write to STATUS (R29) clears the bits written as 1 among SHA_DONE, MEXP_DONE and ERR, ERRCODE with ERR, and does nothing
else, in every state. -/
def Obligations.StatusWriteClearsWhatItNames : Prop :=
  ∀ (s : State) (v : Word), ∃ t, busAccess (Txn.memWrite 0x00C 4 v) s = .next t ∧
    t = { s with biu := t.biu } ∧ t.biu.irqEn = s.biu.irqEn ∧
    t.biu.shaDone = (if v.getLsbD 1 then false else s.biu.shaDone) ∧
    t.biu.mexpDone = (if v.getLsbD 3 then false else s.biu.mexpDone) ∧
    t.biu.err = (if v.getLsbD 4 then false else s.biu.err) ∧
    t.biu.errCode = (if v.getLsbD 4 then .noError else s.biu.errCode)

/-- R30: a write of v to IRQ_EN stores v[2:0], is never rejected and changes nothing else; a read gives those bits, zero
extended; bit 0 lets SHA_DONE, bit 1 MEXP_DONE and bit 2 ERR drive the interrupt output; all three are 0 after reset. -/
def Obligations.IrqEnHoldsThreeBits : Prop :=
  (∀ (s : State) (v : Word), busAccess (Txn.memWrite 0x010 4 v) s =
    .next { s with biu := { s.biu with irqEn := v.extractLsb' 0 3 } }) ∧
  (∀ s : State, readReg s 0x010 = BitVec.setWidth 32 s.biu.irqEn) ∧
  (∀ s : State, irq s = true ↔ (s.biu.shaDone = true ∧ s.biu.irqEn.getLsbD 0 = true) ∨
    (s.biu.mexpDone = true ∧ s.biu.irqEn.getLsbD 1 = true) ∨ (s.biu.err = true ∧ s.biu.irqEn.getLsbD 2 = true)) ∧
  (∀ nw, (State.resetOf nw).biu.irqEn = 0)

/-! ### The register window -/

/-- R64, R162: an access that is not 4 bytes wide, or not at an offset divisible by 4, is a bus error, whatever the state; every
other access completes. A bus error is no next state, so it changes nothing. That it ends the model's run is log entry 5. -/
def Obligations.OnlyAlignedWordsAreAdmitted : Prop :=
  (∀ (s : State) (t : Txn), (t.size ≠ 4 ∨ t.off.toNat % 4 ≠ 0) → busAccess t s = .fault (.busError t.off)) ∧
  (∀ (s : State) (t : Txn), t.size = 4 → t.off.toNat % 4 = 0 → ∃ u, busAccess t s = .next u)

/-- Nothing else fails (R163): the machine never refuses, and it stops exactly where the next agent makes an access that is not
admitted. -/
def Obligations.OnlyBusErrorsStopTheMachine : Prop :=
  ∀ s : State,
    (∀ r, step s ≠ .refused r) ∧
    (¬ StepSafe s ↔
      (∃ t, nextAgent s = .bus t ∧ (t.size ≠ 4 ∨ t.off.toNat % 4 ≠ 0)) ∨
      (nextAgent s = .program ∧ s.host.halted = false ∧ ∃ off, off.toNat % 4 ≠ 0 ∧
        ((∃ src, s.host.prog[s.host.pc]? = some (.wr off src)) ∨ ∃ k, s.host.prog[s.host.pc]? = some (.rd k off))))

/-- A read returns the value the register map gives in the current state, and changes no register, no flag and no unit state
(R36). In every state, also while the units run, a read of Hk and of MSGj is that register (R31, R32, R142), and a read of a word
of OPA, OPB, MOD and RESULT is that word (R33). The values of the other registers are statements of their own. Log entry 12: the
value is latched in the host's `data`, the model's own field. -/
def Obligations.ReadsChangeNothing : Prop :=
  (∀ (s : State) (off : Offset), off.toNat % 4 = 0 →
    busAccess (Txn.memRead off 4) s = .next { s with host := { s.host with data := readReg s off } }) ∧
  (∀ (s : State) (off : Offset),
    (∀ k : Fin 5, off.toNat = 0x020 + 4 * k.val → readReg s off = s.sha.h[k.val]) ∧
    (∀ j : Fin 16, off.toNat = 0x040 + 4 * j.val → readReg s off = s.sha.msg[j.val]) ∧
    (ParamInv s → ∀ i, i < s.nw →
      (off.toNat = 0x100 + 4 * i → s.mexp.opa[i]? = some (readReg s off)) ∧
      (off.toNat = 0x200 + 4 * i → s.mexp.opb[i]? = some (readReg s off)) ∧
      (off.toNat = 0x300 + 4 * i → s.mexp.mod[i]? = some (readReg s off)) ∧
      (off.toNat = 0x400 + 4 * i → s.mexp.result[i]? = some (readReg s off))))

/-- The constants ID and PARAM (R26, R27), and CMD, which reads 0 (R28); writes to ID, PARAM (R26, R27) and RESULT (R33) are
ignored, and a write to CMD submits the word (R28). That a read has no effect is `ReadsChangeNothing`. -/
def Obligations.ReadOnlyRegisters : Prop :=
  (∀ s : State, readReg s 0x000 = 0x434E5301 ∧ readReg s 0x008 = 0 ∧
    (readReg s 0x004).extractLsb' 8 24 = 0 ∧ (ParamInv s → ((readReg s 0x004).extractLsb' 0 8).toNat = s.nw)) ∧
  (∀ (s : State) (v : Word), busAccess (Txn.memWrite 0x000 4 v) s = .next s ∧
    busAccess (Txn.memWrite 0x004 4 v) s = .next s ∧ busAccess (Txn.memWrite 0x008 4 v) s = command v s) ∧
  (∀ (s : State) (v : Word) (off : Offset), ParamInv s → ResultWord s.nw off →
    busAccess (Txn.memWrite off 4 v) s = .next s)

/-- R34: reserved offsets, the operand words with i ≥ NW among them, read 0 and ignore writes; the reserved bits of STATUS,
IRQ_EN and PARAM read 0 and ignore writes; those of CMD, the exception, make a word illegal. -/
def Obligations.ReservedSpaceReadsZeroAndIgnoresWrites : Prop :=
  (∀ (s : State) (off : Offset), ParamInv s → ReservedOffset s.nw off →
    readReg s off = 0 ∧ ∀ v, busAccess (Txn.memWrite off 4 v) s = .next s) ∧
  (∀ s : State, readReg s 0x00C &&& 0xFF8000C0#32 = 0 ∧ readReg s 0x010 &&& 0xFFFFFFF8#32 = 0 ∧
    readReg s 0x004 &&& 0xFFFFFF00#32 = 0) ∧
  (∀ (s : State) (v v' : Word), v &&& 0x007FFF3F#32 = v' &&& 0x007FFF3F#32 →
    busAccess (Txn.memWrite 0x00C 4 v) s = busAccess (Txn.memWrite 0x00C 4 v') s) ∧
  (∀ (s : State) (v v' : Word), v &&& 0x00000007#32 = v' &&& 0x00000007#32 →
    busAccess (Txn.memWrite 0x010 4 v) s = busAccess (Txn.memWrite 0x010 4 v') s) ∧
  (∀ (s : State) (v : Word), busAccess (Txn.memWrite 0x004 4 v) s = .next s) ∧
  (∀ (s : State) (v : Word), v.toNat / 256 ≠ 0 →
    busAccess (Txn.memWrite 0x008 4 v) s = .next (raiseBlockError .illegalCmd s))

/-- A write to an input register of an idle unit (R31, R32, R33, R37) is what a read of it returns, and every other word of the
window reads as before; the unit state, IRQ_EN, the DONE bits, ERR and the host do not change. -/
def Obligations.InputWritesReadBackAndLeaveTheRest : Prop :=
  ∀ (s : State) (off : Offset) (v : Word), ParamInv s →
    (ShaInput off ∧ shaBusy s = false) ∨ (MexpInput s.nw off ∧ mexpBusy s = false) →
    ∃ t, busAccess (Txn.memWrite off 4 v) s = .next t ∧ readReg t off = v ∧
      (∀ off', Aligned off' → off' ≠ off → readReg t off' = readReg s off') ∧
      t.biu = s.biu ∧ t.host = s.host ∧ t.schedule = s.schedule ∧ t.nw = s.nw ∧
      t.sha.phase = s.sha.phase ∧ t.sha.t = s.sha.t ∧ t.sha.work = s.sha.work ∧ t.sha.w = s.sha.w ∧
      t.mexp.phase = s.mexp.phase ∧ t.mexp.m = s.mexp.m ∧ t.mexp.b = s.mexp.b ∧ t.mexp.e = s.mexp.e ∧
      t.mexp.r = s.mexp.r

/-- R35: a write to an input register of a busy unit only raises SHA_BUSY or MEXP_BUSY; whether a write to an input register of a
unit is stored does not depend on the other unit. -/
def Obligations.InputWritesOfABusyUnitAreRejected : Prop :=
  (∀ (s : State) (off : Offset) (v : Word), ShaInput off → shaBusy s = true →
    busAccess (Txn.memWrite off 4 v) s = .next (raiseBlockError .shaBusy s)) ∧
  (∀ (s : State) (off : Offset) (v : Word), ParamInv s → MexpInput s.nw off → mexpBusy s = true →
    busAccess (Txn.memWrite off 4 v) s = .next (raiseBlockError .mexpBusy s)) ∧
  (∀ (s : State) (off : Offset) (v : Word), ParamInv s → ShaInput off → shaBusy s = false →
    ∃ t, busAccess (Txn.memWrite off 4 v) s = .next t ∧ readReg t off = v) ∧
  (∀ (s : State) (off : Offset) (v : Word), ParamInv s → MexpInput s.nw off → mexpBusy s = false →
    ∃ t, busAccess (Txn.memWrite off 4 v) s = .next t ∧ readReg t off = v)

/-- A second write of the same word at the same offset, CMD apart, changes nothing further. For a write that is stored this is the
idempotency of R66. For a rejected write it is not: R66 calls that write not idempotent in STATUS, since the first rejection sets
ERR and ERRCODE; there the statement rests on R161, by which a second rejection leaves both as the first left them. -/
def Obligations.RepeatedWritesAreIdempotent : Prop :=
  ∀ (s t : State) (off : Offset) (v : Word), off ≠ offCmd → busAccess (Txn.memWrite off 4 v) s = .next t →
    busAccess (Txn.memWrite off 4 v) t = .next t

/-- R62: operands are little-endian by word: word i of the words of a value holds its bits [32i+31 : 32i], and the words give
the value back; and the word at the i-th offset of OPA, OPB, MOD and RESULT reads as those bits of the operand's value. -/
def Obligations.OperandsAreLittleEndianByWord : Prop :=
  (∀ (n v i : Nat), i < n → ((natToWords n v).getD i 0).toNat = v / 2 ^ (32 * i) % 2 ^ 32) ∧
  (∀ (n v : Nat), (natToWords n v).length = n ∧ (v < 2 ^ (32 * n) → wordsToNat (natToWords n v) = v)) ∧
  (∀ ws : List Word, wordsToNat ws < 2 ^ (32 * ws.length) ∧ natToWords ws.length (wordsToNat ws) = ws) ∧
  (∀ (s : State) (i : Nat), ParamInv s → i < s.nw →
    (readReg s (offOpa i)).toNat = opaValue s / 2 ^ (32 * i) % 2 ^ 32 ∧
    (readReg s (offOpb i)).toNat = opbValue s / 2 ^ (32 * i) % 2 ^ 32 ∧
    (readReg s (offMod i)).toNat = modValue s / 2 ^ (32 * i) % 2 ^ 32 ∧
    (readReg s (offResult i)).toNat = resultValue s / 2 ^ (32 * i) % 2 ^ 32)

/-- The block decodes the offset bits [11:0] of a bus address less BLOCK_BASE, and nothing else (R68, R81), and BLOCK_BASE is
aligned to 4 KiB (R7). -/
def Obligations.BusAddressesGiveTheirOffset : Prop :=
  (∀ off : Offset, offsetOfBusAddress (busAddress off) = off) ∧
  (∀ addr, Config.blockBase ≤ addr → (offsetOfBusAddress addr).toNat = addr % 4096) ∧
  Config.blockBase % 4096 = 0

/-! ### The host -/

/-- The bus statements of a host program (R88): `wr` and `rd` are one bus write and one bus read, and the host then stands at
its next statement. -/
def Obligations.HostBusStatements : Prop :=
  ∀ s : State, s.host.halted = false →
    (∀ off src, s.host.prog[s.host.pc]? = some (.wr off src) → off.toNat % 4 = 0 →
      ∃ t, busAccess (Txn.memWrite off 4 (srcValue s src)) s = .next t ∧
        agentStep .program s = .next { t with host := { s.host with pc := s.host.pc + 1 } }) ∧
    (∀ k off, s.host.prog[s.host.pc]? = some (.rd k off) → off.toNat % 4 = 0 →
      agentStep .program s = .next { s with host :=
        ⟨s.host.prog, s.host.pc + 1, s.host.regs.set k.val (readReg s off), false, readReg s off⟩ })

/-- The computation statements of a host program (R89, R92): the register each sets, the branch each takes, and that nothing
else changes. -/
def Obligations.HostComputationStatements : Prop :=
  ∀ (s : State) (st : Stmt), s.host.halted = false → s.host.prog[s.host.pc]? = some st →
    (∀ k imm, st = .li k imm → agentStep .program s = .next { s with host := { s.host with
      regs := s.host.regs.set k.val imm, pc := s.host.pc + 1 } }) ∧
    (∀ k j, st = .mv k j → agentStep .program s = .next { s with host := { s.host with
      regs := s.host.regs.set k.val s.host.regs[j.val], pc := s.host.pc + 1 } }) ∧
    (∀ k j imm, st = .andi k j imm → agentStep .program s = .next { s with host := { s.host with
      regs := s.host.regs.set k.val (s.host.regs[j.val] &&& imm), pc := s.host.pc + 1 } }) ∧
    (∀ k j imm, st = .addi k j imm → agentStep .program s = .next { s with host := { s.host with
      regs := s.host.regs.set k.val (BitVec.ofNat 32 ((s.host.regs[j.val].toNat + imm.toNat) % 2 ^ 32)),
      pc := s.host.pc + 1 } }) ∧
    (∀ k imm l, st = .beq k imm l → agentStep .program s = .next { s with host := { s.host with
      pc := if s.host.regs[k.val] = imm then l else s.host.pc + 1 } }) ∧
    (∀ k imm l, st = .bne k imm l → agentStep .program s = .next { s with host := { s.host with
      pc := if s.host.regs[k.val] = imm then s.host.pc + 1 else l } }) ∧
    (∀ k j l, st = .beqr k j l → agentStep .program s = .next { s with host := { s.host with
      pc := if s.host.regs[k.val] = s.host.regs[j.val] then l else s.host.pc + 1 } }) ∧
    (∀ l, st = .jmp l → agentStep .program s = .next { s with host := { s.host with pc := l } }) ∧
    (st = .halt → agentStep .program s = .next { s with host := { s.host with
      halted := true, pc := s.host.pc + 1 } })

/-- The end of a run (R193) is stable in the model: once the host has halted and both units are idle, a step of the host program or
of a unit changes nothing. This is the model's choice: R193 says when a run ends, and not that these agents then step; that a halted
host makes no move is log entry 6, and that the step of an idle unit is a pause is log entry 9. -/
def Obligations.EndedRunsStay : Prop :=
  ∀ (s : State) (a : Agent), RunEnded s → (a = .program ∨ a = .sha1 ∨ a = .mexp) → agentStep a s = .next s

/-- R150, R151: the padded message is the message, the byte 0x80, fewer than 64 zero bytes, up to a length of 56 modulo 64, and the
bit length as a big-endian 64-bit number; it fills its blocks of 64 bytes exactly. -/
def Obligations.PaddingFillsWholeBlocks : Prop :=
  ∀ m : List Byte,
    pad m = m ++ [0x80#8] ++ List.replicate (padZeros m.length) 0x00#8 ++ be64 (8 * m.length) ∧
    padZeros m.length < 64 ∧ (m.length + 1 + padZeros m.length) % 64 = 56 ∧
    (be64 (8 * m.length)).length = 8 ∧
    (8 * m.length < 2 ^ 64 →
      (be64 (8 * m.length)).foldl (fun acc b => acc * 256 + b.toNat) 0 = 8 * m.length) ∧
    (pad m).length = 64 * blockCount m.length ∧ (messageBlocks m).length = blockCount m.length

/-- R151: block k of a message is bytes 64k..64k+63 of the padded message, and its word j is packed of four of them, the first in
bits [31:24]; the block counts and paddings at the ends of the ranges. -/
def Obligations.BlocksAreCutAndPackedBigEndian : Prop :=
  (∀ (m : List Byte) (k : Nat), k < (m.length + 8) / 64 + 1 → ∃ b : Vector Word 16,
    (messageBlocks m)[k]? = some b ∧ ∀ j : Fin 16,
      b[j.val] = (pad m).getD (64 * k + 4 * j.val) 0 ++ (pad m).getD (64 * k + 4 * j.val + 1) 0 ++
        (pad m).getD (64 * k + 4 * j.val + 2) 0 ++ (pad m).getD (64 * k + 4 * j.val + 3) 0) ∧
  (∀ m : List Byte, (messageBlocks m).length = (m.length + 8) / 64 + 1 ∧
    (pad m).length = 64 * ((m.length + 8) / 64 + 1)) ∧
  (∀ len, (len ≤ 55 → blockCount len = 1) ∧ (56 ≤ len → len ≤ 119 → blockCount len = 2)) ∧
  padZeros 55 = 0 ∧ padZeros 56 = 63

/-- R61: the 160-bit digest is H0 ++ H1 ++ H2 ++ H3 ++ H4; digest byte 4k + q is Hk[31-8q : 24-8q], so the 20 bytes are those of
the digest, most significant first; the 64-bit length of the padding is big-endian. R154: the hexadecimal form has 40 characters,
one lowercase digit for each 4 bits of the digest, most significant first. -/
def Obligations.DigestForms : Prop :=
  (∀ (m : List Byte) (i : Nat), i < 8 →
    (pad m).getD (m.length + 1 + padZeros m.length + i) 0 = BitVec.ofNat 8 (8 * m.length / 2 ^ (8 * (7 - i)))) ∧
  ∀ h : Vector Word 5,
    digest h = h[0] ++ h[1] ++ h[2] ++ h[3] ++ h[4] ∧
    (∀ (k : Fin 5) (q : Nat), q < 4 → (digestBytes h).getD (4 * k.val + q) 0 = h[k.val].extractLsb' (24 - 8 * q) 8) ∧
    (hexDigest h).length = 40 ∧
    (digestBytes h).length = 20 ∧
    (∀ i, i < 20 → (digestBytes h).getD i 0 = (digest h).extractLsb' (8 * (19 - i)) 8) ∧
    (∀ i, i < 40 → (hexDigest h).getD i ' ' =
      ['0', '1', '2', '3', '4', '5', '6', '7', '8', '9', 'a', 'b', 'c', 'd', 'e', 'f'].getD
        ((digest h).extractLsb' (4 * (39 - i)) 4).toNat ' ')

/-- The host procedures refuse a message of 2^61 bytes or more (R155), and an operand that is negative or needs more than N
bits (R113, U14); every other message has its digest (R152, R153): the chaining value that the IV gives when its blocks are
compressed into it one after another, read as 160 bits; and every other operand its words. -/
def Obligations.HostProceduresRefuseOnlyWhatDoesNotFit : Prop :=
  (∀ m : List Byte, sha1Chain m =
    (messageBlocks m).foldl compress #v[0x67452301, 0xEFCDAB89, 0x98BADCFE, 0x10325476, 0xC3D2E1F0]) ∧
  (∀ m : List Byte, (m.length < 2 ^ 61 → sha1Message m = .ok (digest (sha1Chain m))) ∧
    (2 ^ 61 ≤ m.length → sha1Message m = .error .messageTooLong)) ∧
  (∀ (nw : Nat) (v : Int),
    (0 ≤ v → v < 2 ^ (32 * nw) → ∃ ws, operandWords nw v = .ok ws ∧ ws.length = nw ∧ (wordsToNat ws : Int) = v) ∧
    (v < 0 ∨ 2 ^ (32 * nw) ≤ v → operandWords nw v = .error .operandNotRepresentable))
end

