-- ==== Sys2Proof/Laws/State.lean ====
section
/-! SUPPORT. One lemma per field per named update of the state, each true by rfl, so that no proof unfolds an update. -/

namespace Sys2Proof.Machine

variable (s : State)

@[simp] theorem State.setBiu_nw (x : Biu) : (s.setBiu x).nw = s.nw := rfl
@[simp] theorem State.setBiu_biu (x : Biu) : (s.setBiu x).biu = x := rfl
@[simp] theorem State.setBiu_sha (x : Biu) : (s.setBiu x).sha = s.sha := rfl
@[simp] theorem State.setBiu_mexp (x : Biu) : (s.setBiu x).mexp = s.mexp := rfl
@[simp] theorem State.setBiu_host (x : Biu) : (s.setBiu x).host = s.host := rfl
@[simp] theorem State.setBiu_schedule (x : Biu) : (s.setBiu x).schedule = s.schedule := rfl
@[simp] theorem State.setBiu_turn (x : Biu) : (s.setBiu x).turn = s.turn := rfl

@[simp] theorem State.setSha_nw (x : ShaUnit) : (s.setSha x).nw = s.nw := rfl
@[simp] theorem State.setSha_biu (x : ShaUnit) : (s.setSha x).biu = s.biu := rfl
@[simp] theorem State.setSha_sha (x : ShaUnit) : (s.setSha x).sha = x := rfl
@[simp] theorem State.setSha_mexp (x : ShaUnit) : (s.setSha x).mexp = s.mexp := rfl
@[simp] theorem State.setSha_host (x : ShaUnit) : (s.setSha x).host = s.host := rfl
@[simp] theorem State.setSha_schedule (x : ShaUnit) : (s.setSha x).schedule = s.schedule := rfl
@[simp] theorem State.setSha_turn (x : ShaUnit) : (s.setSha x).turn = s.turn := rfl

@[simp] theorem State.setMexp_nw (x : MexpUnit) : (s.setMexp x).nw = s.nw := rfl
@[simp] theorem State.setMexp_biu (x : MexpUnit) : (s.setMexp x).biu = s.biu := rfl
@[simp] theorem State.setMexp_sha (x : MexpUnit) : (s.setMexp x).sha = s.sha := rfl
@[simp] theorem State.setMexp_mexp (x : MexpUnit) : (s.setMexp x).mexp = x := rfl
@[simp] theorem State.setMexp_host (x : MexpUnit) : (s.setMexp x).host = s.host := rfl
@[simp] theorem State.setMexp_schedule (x : MexpUnit) : (s.setMexp x).schedule = s.schedule := rfl
@[simp] theorem State.setMexp_turn (x : MexpUnit) : (s.setMexp x).turn = s.turn := rfl

@[simp] theorem State.setHost_nw (x : HostState) : (s.setHost x).nw = s.nw := rfl
@[simp] theorem State.setHost_biu (x : HostState) : (s.setHost x).biu = s.biu := rfl
@[simp] theorem State.setHost_sha (x : HostState) : (s.setHost x).sha = s.sha := rfl
@[simp] theorem State.setHost_mexp (x : HostState) : (s.setHost x).mexp = s.mexp := rfl
@[simp] theorem State.setHost_host (x : HostState) : (s.setHost x).host = x := rfl
@[simp] theorem State.setHost_schedule (x : HostState) : (s.setHost x).schedule = s.schedule := rfl
@[simp] theorem State.setHost_turn (x : HostState) : (s.setHost x).turn = s.turn := rfl

@[simp] theorem State.setSchedule_nw (x : List Agent) : (s.setSchedule x).nw = s.nw := rfl
@[simp] theorem State.setSchedule_biu (x : List Agent) : (s.setSchedule x).biu = s.biu := rfl
@[simp] theorem State.setSchedule_sha (x : List Agent) : (s.setSchedule x).sha = s.sha := rfl
@[simp] theorem State.setSchedule_mexp (x : List Agent) : (s.setSchedule x).mexp = s.mexp := rfl
@[simp] theorem State.setSchedule_host (x : List Agent) : (s.setSchedule x).host = s.host := rfl
@[simp] theorem State.setSchedule_schedule (x : List Agent) : (s.setSchedule x).schedule = x := rfl
@[simp] theorem State.setSchedule_turn (x : List Agent) : (s.setSchedule x).turn = s.turn := rfl

@[simp] theorem raiseBlockError_nw (c : ErrCode) : (raiseBlockError c s).nw = s.nw := rfl
@[simp] theorem raiseBlockError_sha (c : ErrCode) : (raiseBlockError c s).sha = s.sha := rfl
@[simp] theorem raiseBlockError_mexp (c : ErrCode) : (raiseBlockError c s).mexp = s.mexp := rfl
@[simp] theorem raiseBlockError_host (c : ErrCode) : (raiseBlockError c s).host = s.host := rfl
@[simp] theorem raiseBlockError_schedule (c : ErrCode) : (raiseBlockError c s).schedule = s.schedule := rfl
@[simp] theorem raiseBlockError_turn (c : ErrCode) : (raiseBlockError c s).turn = s.turn := rfl

@[simp] theorem resetAll_nw : (resetAll s).nw = s.nw := rfl
@[simp] theorem resetAll_host : (resetAll s).host = s.host := rfl
@[simp] theorem resetAll_schedule : (resetAll s).schedule = s.schedule := rfl
@[simp] theorem resetAll_turn : (resetAll s).turn = s.turn := rfl

@[simp] theorem statusW1c_nw (v : Word) : (statusW1c v s).nw = s.nw := rfl
@[simp] theorem statusW1c_sha (v : Word) : (statusW1c v s).sha = s.sha := rfl
@[simp] theorem statusW1c_mexp (v : Word) : (statusW1c v s).mexp = s.mexp := rfl
@[simp] theorem statusW1c_host (v : Word) : (statusW1c v s).host = s.host := rfl
@[simp] theorem statusW1c_schedule (v : Word) : (statusW1c v s).schedule = s.schedule := rfl
@[simp] theorem statusW1c_turn (v : Word) : (statusW1c v s).turn = s.turn := rfl

@[simp] theorem writeIrqEn_nw (v : Word) : (writeIrqEn v s).nw = s.nw := rfl
@[simp] theorem writeIrqEn_sha (v : Word) : (writeIrqEn v s).sha = s.sha := rfl
@[simp] theorem writeIrqEn_mexp (v : Word) : (writeIrqEn v s).mexp = s.mexp := rfl
@[simp] theorem writeIrqEn_host (v : Word) : (writeIrqEn v s).host = s.host := rfl
@[simp] theorem writeIrqEn_schedule (v : Word) : (writeIrqEn v s).schedule = s.schedule := rfl
@[simp] theorem writeIrqEn_turn (v : Word) : (writeIrqEn v s).turn = s.turn := rfl

@[simp] theorem sha1Init_nw : (sha1Init s).nw = s.nw := rfl
@[simp] theorem sha1Init_biu : (sha1Init s).biu = s.biu := rfl
@[simp] theorem sha1Init_mexp : (sha1Init s).mexp = s.mexp := rfl
@[simp] theorem sha1Init_host : (sha1Init s).host = s.host := rfl
@[simp] theorem sha1Init_schedule : (sha1Init s).schedule = s.schedule := rfl
@[simp] theorem sha1Init_turn : (sha1Init s).turn = s.turn := rfl

@[simp] theorem sha1Accept_nw : (sha1Accept s).nw = s.nw := rfl
@[simp] theorem sha1Accept_mexp : (sha1Accept s).mexp = s.mexp := rfl
@[simp] theorem sha1Accept_host : (sha1Accept s).host = s.host := rfl
@[simp] theorem sha1Accept_schedule : (sha1Accept s).schedule = s.schedule := rfl
@[simp] theorem sha1Accept_turn : (sha1Accept s).turn = s.turn := rfl

@[simp] theorem sha1Complete_nw : (sha1Complete s).nw = s.nw := rfl
@[simp] theorem sha1Complete_mexp : (sha1Complete s).mexp = s.mexp := rfl
@[simp] theorem sha1Complete_host : (sha1Complete s).host = s.host := rfl
@[simp] theorem sha1Complete_schedule : (sha1Complete s).schedule = s.schedule := rfl
@[simp] theorem sha1Complete_turn : (sha1Complete s).turn = s.turn := rfl

@[simp] theorem mexpAcceptExp_nw : (mexpAcceptExp s).nw = s.nw := rfl
@[simp] theorem mexpAcceptExp_sha : (mexpAcceptExp s).sha = s.sha := rfl
@[simp] theorem mexpAcceptExp_host : (mexpAcceptExp s).host = s.host := rfl
@[simp] theorem mexpAcceptExp_schedule : (mexpAcceptExp s).schedule = s.schedule := rfl
@[simp] theorem mexpAcceptExp_turn : (mexpAcceptExp s).turn = s.turn := rfl

@[simp] theorem mexpAcceptMul_nw : (mexpAcceptMul s).nw = s.nw := rfl
@[simp] theorem mexpAcceptMul_sha : (mexpAcceptMul s).sha = s.sha := rfl
@[simp] theorem mexpAcceptMul_host : (mexpAcceptMul s).host = s.host := rfl
@[simp] theorem mexpAcceptMul_schedule : (mexpAcceptMul s).schedule = s.schedule := rfl
@[simp] theorem mexpAcceptMul_turn : (mexpAcceptMul s).turn = s.turn := rfl

@[simp] theorem mexpComplete_nw : (mexpComplete s).nw = s.nw := rfl
@[simp] theorem mexpComplete_sha : (mexpComplete s).sha = s.sha := rfl
@[simp] theorem mexpComplete_host : (mexpComplete s).host = s.host := rfl
@[simp] theorem mexpComplete_schedule : (mexpComplete s).schedule = s.schedule := rfl
@[simp] theorem mexpComplete_turn : (mexpComplete s).turn = s.turn := rfl

@[simp] theorem busRead_nw (o : Offset) : (busRead o s).nw = s.nw := rfl
@[simp] theorem busRead_biu (o : Offset) : (busRead o s).biu = s.biu := rfl
@[simp] theorem busRead_sha (o : Offset) : (busRead o s).sha = s.sha := rfl
@[simp] theorem busRead_mexp (o : Offset) : (busRead o s).mexp = s.mexp := rfl
@[simp] theorem busRead_schedule (o : Offset) : (busRead o s).schedule = s.schedule := rfl
@[simp] theorem busRead_turn (o : Offset) : (busRead o s).turn = s.turn := rfl

@[simp] theorem hostGoto_nw (n : Nat) : (hostGoto n s).nw = s.nw := rfl
@[simp] theorem hostGoto_biu (n : Nat) : (hostGoto n s).biu = s.biu := rfl
@[simp] theorem hostGoto_sha (n : Nat) : (hostGoto n s).sha = s.sha := rfl
@[simp] theorem hostGoto_mexp (n : Nat) : (hostGoto n s).mexp = s.mexp := rfl
@[simp] theorem hostGoto_schedule (n : Nat) : (hostGoto n s).schedule = s.schedule := rfl
@[simp] theorem hostGoto_turn (n : Nat) : (hostGoto n s).turn = s.turn := rfl

@[simp] theorem hostNext_nw : (hostNext s).nw = s.nw := rfl
@[simp] theorem hostNext_biu : (hostNext s).biu = s.biu := rfl
@[simp] theorem hostNext_sha : (hostNext s).sha = s.sha := rfl
@[simp] theorem hostNext_mexp : (hostNext s).mexp = s.mexp := rfl
@[simp] theorem hostNext_schedule : (hostNext s).schedule = s.schedule := rfl
@[simp] theorem hostNext_turn : (hostNext s).turn = s.turn := rfl

@[simp] theorem resetAll_biu : (resetAll s).biu = Biu.reset := rfl
@[simp] theorem resetAll_sha : (resetAll s).sha = ShaUnit.reset := rfl
@[simp] theorem resetAll_mexp : (resetAll s).mexp = MexpUnit.reset s.nw := rfl

@[simp] theorem hostSetNext_nw (k : HostReg) (v : Word) : (hostSetNext k v s).nw = s.nw := rfl
@[simp] theorem hostSetNext_biu (k : HostReg) (v : Word) : (hostSetNext k v s).biu = s.biu := rfl
@[simp] theorem hostSetNext_sha (k : HostReg) (v : Word) : (hostSetNext k v s).sha = s.sha := rfl
@[simp] theorem hostSetNext_mexp (k : HostReg) (v : Word) : (hostSetNext k v s).mexp = s.mexp := rfl
@[simp] theorem hostSetNext_schedule (k : HostReg) (v : Word) : (hostSetNext k v s).schedule = s.schedule := rfl
@[simp] theorem hostSetNext_turn (k : HostReg) (v : Word) : (hostSetNext k v s).turn = s.turn := rfl

end Sys2Proof.Machine
end

