-- ==== Sys2Proof/Laws/Outcome.lean ====
section
/-! SUPPORT. What each shared operation can answer, said once: the meanings and the register writes always answer a next
state (60_exceptions.md R163), and a bus access stops exactly where it is not admitted (20_memory.md R64). -/

namespace Sys2Proof.Machine

theorem mapNext_eq_next {f : State → State} {o : Outcome} {t : State} :
    mapNext f o = .next t ↔ ∃ u, o = .next u ∧ f u = t := by
  cases o <;> simp [mapNext]

theorem mapNext_eq_fault {f : State → State} {o : Outcome} {r : Fault} : mapNext f o = .fault r ↔ o = .fault r := by
  cases o <;> simp [mapNext]

theorem mapNext_eq_refused {f : State → State} {o : Outcome} {r : Refusal} : mapNext f o = .refused r ↔ o = .refused r := by
  cases o <;> simp [mapNext]

/-- Every command answers a next state. -/
theorem exec_answers_next (i : Instr) (s : State) : ∃ t, exec i s = .next t := by
  cases i <;> simp only [exec, execNop, execSrst, execSha1Init, execSha1Block, execSha1Abort, execMexpExp, execMexpMul,
    execMexpAbort]
  case sha1Init | sha1Block => split <;> exact ⟨_, rfl⟩
  all_goals exact ⟨_, rfl⟩

/-- Every command word answers a next state. -/
theorem command_answers_next (v : Word) (s : State) : ∃ t, command v s = .next t := by
  unfold command
  split
  · exact ⟨_, rfl⟩
  · exact exec_answers_next _ _

/-- Every admitted write answers a next state. -/
theorem writeReg_answers_next (off : Offset) (v : Word) (s : State) : ∃ t, writeReg off v s = .next t := by
  unfold writeReg
  cases registerAt s.nw off
  case cmd => exact command_answers_next v s
  all_goals exact ⟨_, rfl⟩

/-- An admitted access answers a next state. -/
theorem busAccess_admitted {t : Txn} (s : State) (h : admitted t = true) : ∃ u, busAccess t s = .next u := by
  unfold busAccess
  rw [if_pos h]
  cases t.dir
  · exact ⟨_, rfl⟩
  · exact writeReg_answers_next _ _ _

/-- An access that is not admitted is a bus error. -/
theorem busAccess_not_admitted {t : Txn} (s : State) (h : ¬ admitted t = true) :
    busAccess t s = .fault (.busError t.off) := by
  unfold busAccess
  rw [if_neg h]

/-- An admitted write is the write of the register its offset names. -/
theorem busAccess_memWrite {off : Offset} (v : Word) (s : State) (h : off.toNat % 4 = 0) :
    busAccess (Txn.memWrite off 4 v) s = writeReg off v s := by
  have ha : admitted (Txn.memWrite off 4 v) = true := by simp [admitted, Txn.memWrite, h]
  unfold busAccess
  rw [if_pos ha]
  rfl

/-- An admitted read latches the value the register map gives. -/
theorem busAccess_memRead {off : Offset} (s : State) (h : off.toNat % 4 = 0) :
    busAccess (Txn.memRead off 4) s = .next (busRead off s) := by
  have ha : admitted (Txn.memRead off 4) = true := by simp [admitted, Txn.memRead, h]
  unfold busAccess
  rw [if_pos ha]
  rfl

/-- A write to CMD submits the command word (R28, R100). -/
theorem busAccess_cmdWrite (w : Word) (s : State) : busAccess (cmdWrite w) s = command w s := by
  rw [cmdWrite, busAccess_memWrite w s (by decide)]
  rfl

/-- A step of an agent is never refused. -/
theorem agentStep_not_refused (a : Agent) (s : State) (r : Refusal) : agentStep a s ≠ .refused r := by
  have bus : ∀ t : Txn, busAccess t s ≠ .refused r := by
    intro t h
    by_cases ha : admitted t = true
    · obtain ⟨u, hu⟩ := busAccess_admitted s ha
      rw [hu] at h
      cases h
    · rw [busAccess_not_admitted s ha] at h
      cases h
  cases a with
  | bus t => exact bus t
  | program =>
    simp only [agentStep, hostStep]
    split
    · simp
    · split
      · simp
      · next st _ =>
        cases st <;> simp only [hostStmt, ne_eq, mapNext_eq_refused, reduceCtorEq, not_false_eq_true]
        · exact bus _
        · exact bus _
  | sha1 | mexp | reset => simp [agentStep]

/-- The step of the machine is the step of the agent that is next, and only the schedule or the turn differs before it. -/
theorem step_eq (s : State) : step s = agentStep (nextAgent s) (chosen s) := rfl

@[simp] theorem chosen_nw (s : State) : (chosen s).nw = s.nw := by unfold chosen; split <;> rfl
@[simp] theorem chosen_biu (s : State) : (chosen s).biu = s.biu := by unfold chosen; split <;> rfl
@[simp] theorem chosen_sha (s : State) : (chosen s).sha = s.sha := by unfold chosen; split <;> rfl
@[simp] theorem chosen_mexp (s : State) : (chosen s).mexp = s.mexp := by unfold chosen; split <;> rfl
@[simp] theorem chosen_host (s : State) : (chosen s).host = s.host := by unfold chosen; split <;> rfl

theorem nextAgent_of_schedule {s : State} {a : Agent} {rest : List Agent} (h : s.schedule = a :: rest) :
    nextAgent s = a := by
  unfold nextAgent
  rw [h]

theorem chosen_of_schedule {s : State} {a : Agent} {rest : List Agent} (h : s.schedule = a :: rest) :
    chosen s = s.setSchedule rest := by
  unfold chosen
  rw [h]

end Sys2Proof.Machine
end

