-- ==== Sys2Proof/Laws/BlockStep.lean ====
section
/-! SUPPORT. Everything one step can do to the block, said once: `step_block`. Every invariant and every whole-machine rule is a
case analysis over it. -/

namespace Sys2Proof.Machine

/-- Two states hold the same block: the same instance, BIU, SHA1 unit and MEXP unit. -/
def SameBlock (x y : State) : Prop := x.nw = y.nw ∧ x.biu = y.biu ∧ x.sha = y.sha ∧ x.mexp = y.mexp

theorem SameBlock.rfl' (x : State) : SameBlock x x := ⟨rfl, rfl, rfl, rfl⟩

/-- The ways in which one step may change the block of the state `s`. -/
inductive BlockStep (s : State) : State → Prop where
  | same : BlockStep s s
  | raise (c : ErrCode) (hc : c ≠ .noError) : BlockStep s (raiseBlockError c s)
  | reset : BlockStep s (resetAll s)
  | statusW1c (v : Word) : BlockStep s (statusW1c v s)
  | irqEn (v : Word) : BlockStep s (writeIrqEn v s)
  | h (hi : s.sha.phase = .idle) (k : Fin 5) (v : Word) :
      BlockStep s (s.setSha { s.sha with h := s.sha.h.set k.val v })
  | msg (hi : s.sha.phase = .idle) (j : Fin 16) (v : Word) :
      BlockStep s (s.setSha { s.sha with msg := s.sha.msg.set j.val v })
  | opa (hi : s.mexp.phase = .idle) (i : Nat) (v : Word) :
      BlockStep s (s.setMexp { s.mexp with opa := s.mexp.opa.set i v })
  | opb (hi : s.mexp.phase = .idle) (i : Nat) (v : Word) :
      BlockStep s (s.setMexp { s.mexp with opb := s.mexp.opb.set i v })
  | mod (hi : s.mexp.phase = .idle) (i : Nat) (v : Word) :
      BlockStep s (s.setMexp { s.mexp with mod := s.mexp.mod.set i v })
  | sha1Init (hi : s.sha.phase = .idle) : BlockStep s (sha1Init s)
  | sha1Accept (hi : s.sha.phase = .idle) : BlockStep s (sha1Accept s)
  | sha1Abort (hr : s.sha.phase = .run) :
      BlockStep s (s.setSha { s.sha with phase := .idle, t := 0, work := Work.zero, w := Vector.replicate 16 0 })
  | sha1Round (hr : s.sha.phase = .run) (ht : s.sha.t.val < 80) : BlockStep s (s.setSha (sha1Round s.sha ht))
  | sha1Complete (hr : s.sha.phase = .run) (ht : s.sha.t.val = 80) : BlockStep s (sha1Complete s)
  | mexpAcceptExp (hi : s.mexp.phase = .idle) (hm : modValue s ≠ 0) : BlockStep s (mexpAcceptExp s)
  | mexpAcceptMul (hi : s.mexp.phase = .idle) (hm : modValue s ≠ 0) : BlockStep s (mexpAcceptMul s)
  | mexpAbort (hb : s.mexp.phase ≠ .idle) :
      BlockStep s (s.setMexp { s.mexp with phase := .idle, m := 1, b := 0, e := 0, r := 0 })
  | mexpBit (he : s.mexp.phase = .exp) (hn : s.mexp.e ≠ 0) : BlockStep s (s.setMexp (mexpBit s.mexp))
  | mexpComplete (hb : s.mexp.phase ≠ .idle) (hd : s.mexp.phase = .exp → s.mexp.e = 0) : BlockStep s (mexpComplete s)

theorem shaBusy_eq_true {s : State} : shaBusy s = true ↔ s.sha.phase = .run := by simp [shaBusy]

theorem shaBusy_eq_false {s : State} : shaBusy s = false ↔ s.sha.phase = .idle := by
  cases h : s.sha.phase <;> simp [shaBusy, h]

theorem mexpBusy_eq_true {s : State} : mexpBusy s = true ↔ s.mexp.phase ≠ .idle := by simp [mexpBusy]

theorem mexpBusy_eq_false {s : State} : mexpBusy s = false ↔ s.mexp.phase = .idle := by simp [mexpBusy]

/-- A command changes the block in one of those ways. -/
theorem exec_block {i : Instr} {s t : State} (h : exec i s = .next t) : BlockStep s t := by
  have shaCmd : ∀ {c : ErrCode} {f : State → State}, c ≠ .noError → (s.sha.phase = .idle → BlockStep s (f s)) →
      (if shaBusy s then (.next (raiseBlockError c s) : Outcome) else .next (f s)) = .next t → BlockStep s t := by
    intro c f hc hf h
    split at h
    · cases h
      exact .raise c hc
    · cases h
      exact hf (shaBusy_eq_false.mp (by simpa using ‹¬ shaBusy s = true›))
  have mexpCmd : ∀ {f : State → State}, (s.mexp.phase = .idle → modValue s ≠ 0 → BlockStep s (f s)) →
      (.next (mexpAcceptOr f s) : Outcome) = .next t → BlockStep s t := by
    intro f hf h
    cases h
    unfold mexpAcceptOr
    split
    · exact .raise _ (by simp)
    · split
      · exact .raise _ (by simp)
      · exact hf (mexpBusy_eq_false.mp (by simpa using ‹¬ mexpBusy s = true›)) ‹_›
  cases i with
  | nop => cases h; exact .same
  | srst => cases h; exact .reset
  | sha1Init => exact shaCmd (by simp) .sha1Init h
  | sha1Block => exact shaCmd (by simp) .sha1Accept h
  | sha1Abort =>
    cases h
    unfold Sys2Proof.Machine.sha1Abort
    split
    · exact .same
    · exact .sha1Abort ‹_›
  | mexpExp => exact mexpCmd .mexpAcceptExp h
  | mexpMul => exact mexpCmd .mexpAcceptMul h
  | mexpAbort =>
    cases h
    unfold Sys2Proof.Machine.mexpAbort
    split
    · exact .same
    · exact .mexpAbort (by simp [*])
    · exact .mexpAbort (by simp [*])

theorem command_block {v : Word} {s t : State} (h : command v s = .next t) : BlockStep s t := by
  unfold command at h
  split at h
  · cases h
    exact .raise _ (by simp)
  · exact exec_block h

theorem writeReg_block {off : Offset} {v : Word} {s t : State} (h : writeReg off v s = .next t) : BlockStep s t := by
  have sha : ∀ {u : ShaUnit}, (s.sha.phase = .idle → BlockStep s (s.setSha u)) → BlockStep s (writeSha u s) := by
    intro u hu
    unfold writeSha
    split
    · exact .raise _ (by simp)
    · exact hu (shaBusy_eq_false.mp (by simpa using ‹¬ shaBusy s = true›))
  have mexp : ∀ {u : MexpUnit}, (s.mexp.phase = .idle → BlockStep s (s.setMexp u)) → BlockStep s (writeMexp u s) := by
    intro u hu
    unfold writeMexp
    split
    · exact .raise _ (by simp)
    · exact hu (mexpBusy_eq_false.mp (by simpa using ‹¬ mexpBusy s = true›))
  unfold writeReg at h
  split at h
  · cases h; exact .same
  · cases h; exact .same
  · exact command_block h
  · cases h; exact .statusW1c v
  · cases h; exact .irqEn v
  · next k _ => cases h; exact sha (.h · k v)
  · next j _ => cases h; exact sha (.msg · j v)
  · next i _ => cases h; exact mexp (.opa · i v)
  · next i _ => cases h; exact mexp (.opb · i v)
  · next i _ => cases h; exact mexp (.mod · i v)
  · cases h; exact .same
  · cases h; exact .same

/-- A bus access changes the block in one of those ways, and a read does not change it. -/
theorem busAccess_block {x : Txn} {s t : State} (h : busAccess x s = .next t) : ∃ u, BlockStep s u ∧ SameBlock u t := by
  unfold busAccess at h
  split at h
  · split at h
    · cases h
      exact ⟨s, .same, rfl, rfl, rfl, rfl⟩
    · exact ⟨t, writeReg_block h, .rfl' t⟩
  · cases h

theorem sha1Step_block (s : State) : BlockStep s (sha1Step s) := by
  unfold sha1Step
  split
  · exact .same
  · split
    · exact .sha1Round ‹_› ‹_›
    · exact .sha1Complete ‹_› (by have := s.sha.t.isLt; omega)

theorem mexpStep_block (s : State) : BlockStep s (mexpStep s) := by
  unfold mexpStep
  split
  · exact .same
  · split
    · exact .mexpBit ‹_› ‹_›
    · exact .mexpComplete (by simp [*]) (by simp_all)
  · exact .mexpComplete (by simp [*]) (by simp [*])

theorem hostStmt_block {st : Stmt} {s t : State} (h : hostStmt st s = .next t) : ∃ u, BlockStep s u ∧ SameBlock u t := by
  have same : ∀ {y : State}, SameBlock s y → (.next y : Outcome) = .next t → ∃ u, BlockStep s u ∧ SameBlock u t := by
    intro y hy h
    cases h
    exact ⟨s, .same, hy⟩
  have branch : ∀ b n, SameBlock s (hostBranch b n s) := by
    intro b n
    unfold hostBranch
    split <;> exact ⟨rfl, rfl, rfl, rfl⟩
  cases st with
  | wr off src =>
    obtain ⟨y, hy, rfl⟩ := mapNext_eq_next.mp h
    obtain ⟨u, hu, h1, h2, h3, h4⟩ := busAccess_block hy
    exact ⟨u, hu, h1, h2, h3, h4⟩
  | rd k off =>
    obtain ⟨y, hy, rfl⟩ := mapNext_eq_next.mp h
    obtain ⟨u, hu, h1, h2, h3, h4⟩ := busAccess_block hy
    exact ⟨u, hu, h1, h2, h3, h4⟩
  | beq k imm n => exact same (branch _ _) h
  | bne k imm n => exact same (branch _ _) h
  | beqr k j n => exact same (branch _ _) h
  | li | mv | andi | addi | jmp | halt => cases h; exact ⟨s, .same, rfl, rfl, rfl, rfl⟩

/-- A step of any agent changes the block in one of those ways. -/
theorem agentStep_block {a : Agent} {s t : State} (h : agentStep a s = .next t) :
    ∃ u, BlockStep s u ∧ SameBlock u t := by
  cases a with
  | bus x => exact busAccess_block h
  | program =>
    simp only [agentStep, hostStep] at h
    split at h
    · cases h
      exact ⟨s, .same, .rfl' s⟩
    · split at h
      · cases h
        exact ⟨s, .same, .rfl' s⟩
      · exact hostStmt_block h
  | sha1 => cases h; exact ⟨_, sha1Step_block s, .rfl' _⟩
  | mexp => cases h; exact ⟨_, mexpStep_block s, .rfl' _⟩
  | reset => cases h; exact ⟨_, .reset, .rfl' _⟩

/-- Everything a step of the machine can do to the block. -/
theorem step_block {s t : State} (h : step s = .next t) : ∃ u, BlockStep (chosen s) u ∧ SameBlock u t := by
  rw [step_eq] at h
  exact agentStep_block h

end Sys2Proof.Machine
end

