-- ==== Sys2Proof/Laws/Decode.lean ====
section
/-! SUPPORT. The fields of a command word as numbers (30_encoding.md R80). -/

namespace Sys2Proof

theorem opField_toNat (w : Word) : (opField w).toNat = w.toNat % 256 := by
  simp [opField, BitVec.extractLsb'_toNat]

theorem rsvdField_toNat (w : Word) : (rsvdField w).toNat = w.toNat / 256 := by
  have := w.isLt
  simp only [rsvdField, BitVec.extractLsb'_toNat, Nat.shiftRight_eq_div_pow]
  omega

/-- RSVD is 0 exactly for the words below 256. -/
theorem rsvdField_eq_zero_iff (w : Word) : rsvdField w = 0 ↔ w.toNat / 256 = 0 := by
  rw [← rsvdField_toNat]
  exact ⟨fun h => by rw [h]; rfl, fun h => BitVec.eq_of_toNat_eq h⟩

/-- The command word of a command is its OP. -/
theorem encode_toNat (i : Instr) : (encode i).toNat = (opcode i).toNat := by cases i <;> rfl

/-- The opcode map lists each command under its OP, and no OP twice. -/
theorem lookup_opcodeMap_iff (op : BitVec 8) (i : Instr) : opcodeMap.lookup op = some i ↔ opcode i = op := by
  simp only [opcodeMap, List.lookup]
  repeat' split
  all_goals (cases i <;> simp_all [opcode])
  all_goals (intro h; subst h; simp_all)

/-- An OP that the opcode map does not list is the OP of no command. -/
theorem lookup_opcodeMap_eq_none (op : BitVec 8) : opcodeMap.lookup op = none ↔ ∀ i, opcode i ≠ op := by
  constructor
  · intro h i hi
    rw [← lookup_opcodeMap_iff] at hi
    rw [h] at hi
    cases hi
  · intro h
    cases hl : opcodeMap.lookup op with
    | none => rfl
    | some i => exact absurd ((lookup_opcodeMap_iff op i).mp hl) (h i)

end Sys2Proof
end

