-- ==== Sys2Proof/Laws/Window.lean ====
section
/-! SUPPORT. The register map as a map (10_state.md R25), and, said once, what a register write and a step of an agent can be:
`writeReg_cases`, `agentStep_cases`. -/

namespace Sys2Proof.Machine

open Sys2Proof.Safety

theorem offset_eq {a : Offset} {n : Nat} (h : a.toNat = n) : a = BitVec.ofNat 12 n := by
  have := a.isLt
  apply BitVec.eq_of_toNat_eq
  simp only [BitVec.toNat_ofNat]
  omega

/-- The offset of each register of the map, found from the register. -/
theorem registerAt_offset {nw : Nat} {off : Offset} (ha : off.toNat % 4 = 0) :
    match registerAt nw off with
    | .id => off = offId
    | .param => off = offParam
    | .cmd => off = offCmd
    | .status => off = offStatus
    | .irqEn => off = offIrqEn
    | .h k => off = offH k.val
    | .msg j => off = offMsg j.val
    | .opa i => off = offOpa i ∧ i < nw
    | .opb i => off = offOpb i ∧ i < nw
    | .mod i => off = offMod i ∧ i < nw
    | .result i => off = offResult i ∧ i < nw
    | .reserved => True := by
  generalize hr : registerAt nw off = r
  unfold registerAt registerAtByte at hr
  repeat' split at hr
  all_goals subst hr
  all_goals first
    | trivial
    | exact offset_eq (by omega)
    | exact offset_eq (by simp only; omega)
    | exact ⟨offset_eq (by omega), by omega⟩

/-- The 32 bits at the five fixed offsets, H and MSG (R25). -/
theorem registerAt_h (nw : Nat) (off : Offset) (k : Fin 5) (h : off.toNat = 0x020 + 4 * k.val) :
    registerAt nw off = .h k := by
  have := k.isLt
  unfold registerAt registerAtByte
  repeat' split
  all_goals first
    | omega
    | (congr 1; apply Fin.ext; simp only; omega)

theorem registerAt_msg (nw : Nat) (off : Offset) (j : Fin 16) (h : off.toNat = 0x040 + 4 * j.val) :
    registerAt nw off = .msg j := by
  have := j.isLt
  unfold registerAt registerAtByte
  repeat' split
  all_goals first
    | omega
    | (congr 1; apply Fin.ext; simp only; omega)

theorem registerAt_opa (nw : Nat) (off : Offset) (i : Nat) (hi : i < nw) (h : off.toNat = 0x100 + 4 * i) :
    registerAt nw off = .opa i := by
  unfold registerAt registerAtByte
  repeat' split
  all_goals first
    | omega
    | (congr 1; omega)

theorem registerAt_opb (nw : Nat) (off : Offset) (i : Nat) (hn : nw ≤ 64) (hi : i < nw) (h : off.toNat = 0x200 + 4 * i) :
    registerAt nw off = .opb i := by
  unfold registerAt registerAtByte
  repeat' split
  all_goals first
    | omega
    | (congr 1; omega)

theorem registerAt_mod (nw : Nat) (off : Offset) (i : Nat) (hn : nw ≤ 64) (hi : i < nw) (h : off.toNat = 0x300 + 4 * i) :
    registerAt nw off = .mod i := by
  unfold registerAt registerAtByte
  repeat' split
  all_goals first
    | omega
    | (congr 1; omega)

theorem registerAt_result (nw : Nat) (off : Offset) (i : Nat) (hn : nw ≤ 64) (hi : i < nw)
    (h : off.toNat = 0x400 + 4 * i) : registerAt nw off = .result i := by
  unfold registerAt registerAtByte
  repeat' split
  all_goals first
    | omega
    | (congr 1; omega)

/-- The registers of an input register of the SHA1 unit (R25). -/
theorem registerAt_shaInput (nw : Nat) {off : Offset} (h : ShaInput off) :
    (∃ k, registerAt nw off = .h k) ∨ ∃ j, registerAt nw off = .msg j := by
  obtain ⟨ha, h | h⟩ := h
  · exact .inl ⟨⟨(off.toNat - 0x020) / 4, by omega⟩, registerAt_h nw off _ (by unfold Aligned at ha; simp only; omega)⟩
  · exact .inr ⟨⟨(off.toNat - 0x040) / 4, by omega⟩, registerAt_msg nw off _ (by unfold Aligned at ha; simp only; omega)⟩

/-- The registers of an input register of the MEXP unit (R25). -/
theorem registerAt_mexpInput {nw : Nat} (hn : nw ≤ 64) {off : Offset} (h : MexpInput nw off) :
    ∃ i, i < nw ∧ (registerAt nw off = .opa i ∨ registerAt nw off = .opb i ∨ registerAt nw off = .mod i) := by
  obtain ⟨ha, h | h | h⟩ := h <;> unfold Aligned at ha
  · exact ⟨(off.toNat - 0x100) / 4, by omega, .inl (registerAt_opa nw off _ (by omega) (by omega))⟩
  · exact ⟨(off.toNat - 0x200) / 4, by omega, .inr (.inl (registerAt_opb nw off _ hn (by omega) (by omega)))⟩
  · exact ⟨(off.toNat - 0x300) / 4, by omega, .inr (.inr (registerAt_mod nw off _ hn (by omega) (by omega)))⟩

/-- A reserved offset names no register (R25, R34). -/
theorem registerAt_reserved {nw : Nat} (hn : nw ≤ 64) {off : Offset} (h : ReservedOffset nw off) :
    registerAt nw off = .reserved := by
  obtain ⟨ha, h⟩ := h
  unfold Aligned at ha
  unfold registerAt registerAtByte
  repeat' split
  all_goals first
    | omega
    | rfl

/-- Everything a register write can do (R37). -/
theorem writeReg_cases {off : Offset} {v : Word} {s t : State} (ha : off.toNat % 4 = 0)
    (h : writeReg off v s = .next t) :
    t = s ∨ (off = offCmd ∧ command v s = .next t) ∨ (off = offStatus ∧ t = statusW1c v s) ∨
    (off = offIrqEn ∧ t = writeIrqEn v s) ∨
    (∃ k : Fin 5, off = offH k.val ∧ t = writeSha { s.sha with h := s.sha.h.set k.val v } s) ∨
    (∃ j : Fin 16, off = offMsg j.val ∧ t = writeSha { s.sha with msg := s.sha.msg.set j.val v } s) ∨
    (∃ i, t = writeMexp { s.mexp with opa := s.mexp.opa.set i v } s ∨
      t = writeMexp { s.mexp with opb := s.mexp.opb.set i v } s ∨
      t = writeMexp { s.mexp with mod := s.mexp.mod.set i v } s) := by
  have hr := registerAt_offset (nw := s.nw) ha
  unfold writeReg at h
  split at h
  all_goals (rename_i e; rw [e] at hr)
  · cases h; exact .inl rfl
  · cases h; exact .inl rfl
  · exact .inr (.inl ⟨hr, h⟩)
  · cases h; exact .inr (.inr (.inl ⟨hr, rfl⟩))
  · cases h; exact .inr (.inr (.inr (.inl ⟨hr, rfl⟩)))
  · cases h; exact .inr (.inr (.inr (.inr (.inl ⟨_, hr, rfl⟩))))
  · cases h; exact .inr (.inr (.inr (.inr (.inr (.inl ⟨_, hr, rfl⟩)))))
  · cases h; exact .inr (.inr (.inr (.inr (.inr (.inr ⟨_, .inl rfl⟩)))))
  · cases h; exact .inr (.inr (.inr (.inr (.inr (.inr ⟨_, .inr (.inl rfl)⟩)))))
  · cases h; exact .inr (.inr (.inr (.inr (.inr (.inr ⟨_, .inr (.inr rfl)⟩)))))
  · cases h; exact .inl rfl
  · cases h; exact .inl rfl

/-- Everything a step of an agent can do: the block stays, or a unit steps, or the block is reset, or a word is written. -/
theorem agentStep_cases {a : Agent} {s t : State} (h : agentStep a s = .next t) :
    SameBlock s t ∨ (a = .sha1 ∧ t = sha1Step s) ∨ (a = .mexp ∧ t = mexpStep s) ∨ (a = .reset ∧ t = resetAll s) ∨
    ∃ off v u, WritesWord a s off v ∧ off.toNat % 4 = 0 ∧ writeReg off v s = .next u ∧ SameBlock u t := by
  have same : ∀ {y : State}, SameBlock s y → (.next y : Outcome) = .next t → SameBlock s t := by
    intro y hy h
    cases h
    exact hy
  have branch : ∀ b n, SameBlock s (hostBranch b n s) := by
    intro b n
    unfold hostBranch
    split <;> exact ⟨rfl, rfl, rfl, rfl⟩
  cases a with
  | sha1 => cases h; exact .inr (.inl ⟨rfl, rfl⟩)
  | mexp => cases h; exact .inr (.inr (.inl ⟨rfl, rfl⟩))
  | reset => cases h; exact .inr (.inr (.inr (.inl ⟨rfl, rfl⟩)))
  | bus x =>
    simp only [agentStep, busAccess] at h
    split at h
    · next had =>
      split at h
      · cases h
        exact .inl ⟨rfl, rfl, rfl, rfl⟩
      · next hd =>
        refine .inr (.inr (.inr (.inr ⟨x.off, x.data, t, .inl ⟨x, rfl, had, hd, rfl, rfl⟩, ?_, h, .rfl' t⟩)))
        simp only [admitted, Bool.and_eq_true, decide_eq_true_eq] at had
        exact had.2
    · cases h
  | program =>
    simp only [agentStep, hostStep] at h
    split at h
    · cases h
      exact .inl (.rfl' s)
    · next hh =>
      have hh : s.host.halted = false := by simpa using hh
      split at h
      · cases h
        exact .inl (.rfl' s)
      · next st hst =>
        cases st with
        | wr off src =>
          obtain ⟨y, hy, rfl⟩ := mapNext_eq_next.mp h
          by_cases ha : off.toNat % 4 = 0
          · rw [busAccess_memWrite _ _ ha] at hy
            exact .inr (.inr (.inr (.inr ⟨off, srcValue s src, y, .inr ⟨rfl, hh, ha, src, hst, rfl⟩, ha, hy,
              rfl, rfl, rfl, rfl⟩)))
          · rw [busAccess_not_admitted s (by simp [admitted, Txn.memWrite, ha])] at hy
            cases hy
        | rd k off =>
          obtain ⟨y, hy, rfl⟩ := mapNext_eq_next.mp h
          by_cases ha : off.toNat % 4 = 0
          · rw [busAccess_memRead _ ha] at hy
            cases hy
            exact .inl ⟨rfl, rfl, rfl, rfl⟩
          · rw [busAccess_not_admitted s (by simp [admitted, Txn.memRead, ha])] at hy
            cases hy
        | beq k imm n => exact .inl (same (branch _ _) h)
        | bne k imm n => exact .inl (same (branch _ _) h)
        | beqr k j n => exact .inl (same (branch _ _) h)
        | li | mv | andi | addi | jmp | halt => cases h; exact .inl ⟨rfl, rfl, rfl, rfl⟩

end Sys2Proof.Machine
end

