-- ==== Sys2Proof/Laws/Flags.lean ====
section
/-! SUPPORT. STATUS bit by bit (10_state.md R29). -/

namespace Sys2Proof.Machine

theorem ofBool_getLsbD (b : Bool) (i : Nat) : (BitVec.ofBool b).getLsbD i = (b && decide (i = 0)) := by
  cases b <;> simp [BitVec.ofBool]

/-- Bit `i` of STATUS, for every `i` (R29). -/
theorem statusWord_getLsbD (s : State) (i : Nat) :
    (statusWord s).getLsbD i =
      if i = 0 then shaBusy s
      else if i = 1 then s.biu.shaDone
      else if i = 2 then mexpBusy s
      else if i = 3 then s.biu.mexpDone
      else if i = 4 then s.biu.err
      else if i = 5 then irq s
      else if i < 8 then false
      else if i < 16 then s.biu.errCode.byte.getLsbD (i - 8)
      else if i < 23 then (BitVec.ofNat 7 s.sha.t.val).getLsbD (i - 16)
      else false := by
  by_cases h : i < 32
  · unfold statusWord
    generalize irq s = q
    generalize shaBusy s = q1
    generalize mexpBusy s = q2
    interval_cases i <;> simp only [BitVec.getLsbD_append, ofBool_getLsbD, Nat.reduceLT, Nat.reduceSub, if_true, if_false,
      Nat.reduceEqDiff] <;> simp
  · rw [BitVec.getLsbD_of_ge _ _ (by omega)]
    repeat rw [if_neg (by omega)]

end Sys2Proof.Machine
end

