-- ==== Sys2Proof/Laws/Schedule.lean ====
section
/-! SUPPORT. The message schedule, built word after word (42_sha1.md R133): a word, once built, stays. -/

namespace Sys2Proof.Machine

theorem schedulePart_length (m : Vector Word 16) (n : Nat) : (schedulePart m n).length = n + 16 := by
  induction n with
  | zero => simp [schedulePart]
  | succ n ih => simp [schedulePart, ih]

/-- Building on leaves the words that stand. -/
theorem schedulePart_getD_add (m : Vector Word 16) (n k j : Nat) (hj : j < n + 16) :
    (schedulePart m (n + k)).getD j 0 = (schedulePart m n).getD j 0 := by
  induction k with
  | zero => rfl
  | succ k ih =>
    rw [← ih, ← Nat.add_assoc, schedulePart, List.getD_append]
    rw [schedulePart_length]
    omega

/-- w[j] stands in every part of the schedule that is long enough. -/
theorem scheduleWord_eq (m : Vector Word 16) (n j : Nat) (hn : n ≤ 64) (hj : j < n + 16) :
    scheduleWord m j = (schedulePart m n).getD j 0 := by
  rw [scheduleWord, ← schedulePart_getD_add m n (64 - n) j hj, Nat.add_sub_cancel' hn]

end Sys2Proof.Machine
end

