-- ==== Sys2Proof/Laws/Units.lean ====
section
/-! SUPPORT. What a step of each unit is, by the unit's state (42_sha1.md R141, R143; 41_modexp.md R114); what a write to an
input register is, by the owning unit's state (10_state.md R35); and runs of several steps. -/

namespace Sys2Proof.Machine

variable {s : State}

theorem sha1Step_idle (h : s.sha.phase = .idle) : sha1Step s = s := by simp [sha1Step, h]

theorem sha1Step_round (hr : s.sha.phase = .run) (ht : s.sha.t.val < 80) : sha1Step s = s.setSha (sha1Round s.sha ht) := by
  unfold sha1Step
  split
  · simp_all
  · rw [dif_pos ht]

theorem sha1Step_complete (hr : s.sha.phase = .run) (ht : s.sha.t.val = 80) : sha1Step s = sha1Complete s := by
  unfold sha1Step
  split
  · simp_all
  · rw [dif_neg (by omega)]

theorem mexpStep_idle (h : s.mexp.phase = .idle) : mexpStep s = s := by simp [mexpStep, h]

theorem mexpStep_bit (hp : s.mexp.phase = .exp) (he : s.mexp.e ≠ 0) : mexpStep s = s.setMexp (mexpBit s.mexp) := by
  simp [mexpStep, hp, he]

theorem mexpStep_complete (hp : s.mexp.phase ≠ .idle) (he : s.mexp.phase = .exp → s.mexp.e = 0) :
    mexpStep s = mexpComplete s := by
  unfold mexpStep
  split <;> simp_all

theorem writeSha_eq (u : ShaUnit) (s : State) :
    (shaBusy s = true ∧ writeSha u s = raiseBlockError .shaBusy s) ∨ (shaBusy s = false ∧ writeSha u s = s.setSha u) := by
  unfold writeSha
  cases shaBusy s <;> simp

theorem writeMexp_eq (u : MexpUnit) (s : State) :
    (mexpBusy s = true ∧ writeMexp u s = raiseBlockError .mexpBusy s) ∨ (mexpBusy s = false ∧ writeMexp u s = s.setMexp u) := by
  unfold writeMexp
  cases mexpBusy s <;> simp

/-- A register write, a command among them, leaves the host. -/
theorem writeReg_host {off : Offset} {v : Word} {t : State} (h : writeReg off v s = .next t) : t.host = s.host := by
  have cmd : ∀ {i : Instr}, exec i s = .next t → t.host = s.host := by
    intro i h
    cases i
    case sha1Init | sha1Block => simp only [exec, execSha1Init, execSha1Block] at h; split at h <;> (cases h; rfl)
    case sha1Abort | mexpAbort => cases h; simp only [Sys2Proof.Machine.sha1Abort, Sys2Proof.Machine.mexpAbort]; split <;> rfl
    case mexpExp | mexpMul => cases h; simp only [mexpAcceptOr]; split <;> (try split) <;> rfl
    all_goals (cases h; rfl)
  have sha : ∀ u, (writeSha u s).host = s.host := by intro u; unfold writeSha; split <;> rfl
  have mexp : ∀ u, (writeMexp u s).host = s.host := by intro u; unfold writeMexp; split <;> rfl
  unfold writeReg at h
  split at h
  case h_3 =>
    unfold command at h
    split at h
    · cases h; rfl
    · exact cmd h
  all_goals (cases h; first | rfl | exact sha _ | exact mexp _)

/-- The first step of a run, where the schedule says who takes it. -/
theorem run_cons {t : State} {a : Agent} {rest : List Agent} {k : Nat} (h : s.schedule = a :: rest)
    (ht : agentStep a (s.setSchedule rest) = .next t) : Host.Core.run core (k + 1) s = Host.Core.run core k t := by
  have hstep : core.step s = .next t := by
    show step s = _
    rw [step_eq, nextAgent_of_schedule h, chosen_of_schedule h, ht]
    rfl
  simp only [Host.Core.run, hstep]

/-- A run, cut in two. -/
theorem run_add {m : Nat} {t : State} (n : Nat) (h : Host.Core.run core m s = .next t) :
    Host.Core.run core (m + n) s = Host.Core.run core n t := by
  induction m generalizing s with
  | zero =>
    simp only [Host.Core.run] at h
    cases h
    simp
  | succ m ih =>
    rw [Nat.add_right_comm]
    simp only [Host.Core.run] at h ⊢
    cases hx : core.step s <;> rw [hx] at h
    · exact ih h
    · cases h
    · cases h

end Sys2Proof.Machine
end

