-- ==== Sys2Proof/Laws/HostProgram.lean ====
section
/-! SUPPORT. What the loads of a modular operand can answer (30_encoding.md R90, 41_modexp.md R113). -/

namespace Sys2Proof.Machine

/-- One statement a word. -/
theorem ldWords_length (off : Nat → Offset) (ws : List Word) : (ldWords off ws).length = ws.length := by simp [ldWords]

/-- A load expands exactly where the operand has words, and then to one write per word. -/
theorem ldOperand_eq_ok {off : Nat → Offset} {nw : Nat} {v : Int} {p : List Stmt} :
    ldOperand off nw v = .ok p ↔ ∃ ws, operandWords nw v = .ok ws ∧ ldWords off ws = p := by
  unfold ldOperand
  cases operandWords nw v <;> simp [Except.map]

/-- A load is refused exactly where the operand is, for the same reason. -/
theorem ldOperand_eq_error {off : Nat → Offset} {nw : Nat} {v : Int} {r : HostRefusal} :
    ldOperand off nw v = .error r ↔ operandWords nw v = .error r := by
  unfold ldOperand
  cases operandWords nw v <;> simp [Except.map]

end Sys2Proof.Machine
end

