-- ==== Sys2Proof/Laws/PerInstr.lean ====
section
/-! SUPPORT. What holds of every command as syntax, one lemma per command: its command word has RSVD = 0 and its OP is one of the
defined ones (30_encoding.md R80, R83). -/

namespace Sys2Proof.Laws.ReservedZero

/-- The command is well-formed, its word has RSVD = 0 and the command's OP, and the word is well-formed. -/
def Statement (i : Instr) : Prop :=
  i.wellFormed = true ∧ rsvdField (encode i) = 0 ∧ opField (encode i) = opcode i ∧ cmdWordWellFormed (encode i) = true

theorem nop : Statement .nop := by unfold Statement; decide
theorem srst : Statement .srst := by unfold Statement; decide
theorem sha1Init : Statement .sha1Init := by unfold Statement; decide
theorem sha1Block : Statement .sha1Block := by unfold Statement; decide
theorem sha1Abort : Statement .sha1Abort := by unfold Statement; decide
theorem mexpExp : Statement .mexpExp := by unfold Statement; decide
theorem mexpMul : Statement .mexpMul := by unfold Statement; decide
theorem mexpAbort : Statement .mexpAbort := by unfold Statement; decide

end Sys2Proof.Laws.ReservedZero
end

