-- ==== Sys2Proof/Tests/Slice0.lean ====
section
/-! SUPPORT. The model's own tests: the checks of WellFormed on ill-formed terms; command words written out from the spec's
encoding; one-step tests whose expected values are those of 95_test_vectors.md; and, for every statement with hypotheses, a state
and operands that meet them. -/

namespace Sys2Proof.Tests

open Sys2Proof.Machine Sys2Proof.Safety

/-! ### WellFormed: an ill-formed term for each check -/

/-- R83: RSVD ≠ 0. -/
theorem test_wellFormed_rsvd : cmdWordWellFormed 0x00000100 = false ∧ rsvdIsZero 0x00000100 = false := by decide
/-- R83: reserved OP values, the ends of their ranges. -/
theorem test_wellFormed_op : [0x02#32, 0x0F#32, 0x12#32, 0x1E#32, 0x22#32, 0x2E#32, 0x30#32, 0xFF#32].all (fun w =>
    !cmdWordWellFormed w && !opIsDefined w) = true := by decide
/-- R64: a 2-byte access, an 8-byte access, and a 4-byte access at 0x002. -/
theorem test_wellFormed_txn : (Txn.memRead 0x000 2).wellFormed = false ∧ (Txn.memWrite 0x000 8 0).wellFormed = false ∧
    (Txn.memRead 0x002 4).wellFormed = false := by decide
/-- R64: misaligned offsets of `wr` and `rd`; R92: labels past the last statement. -/
theorem test_wellFormed_stmt : (Stmt.wr 0x00A (.imm 0)).wellFormed 1 = false ∧ (Stmt.rd 1 0x003).wellFormed 1 = false ∧
    (Stmt.beq 0 0 1).wellFormed 1 = false ∧ (Stmt.bne 0 0 1).wellFormed 1 = false ∧ (Stmt.beqr 0 1 1).wellFormed 1 = false ∧
    (Stmt.jmp 1).wellFormed 1 = false := by decide
/-- A program with one ill-formed statement is ill-formed, and one without is well-formed. -/
theorem test_wellFormed_program : programWellFormed [.halt, .jmp 2] = false ∧ programWellFormed [.halt, .jmp 1] = true := by
  decide

/-! ### Decoding: words written out from R80 and R82, RSVD in bits [31:8] and OP in bits [7:0] -/

theorem test_decode_nop : decode 0b00000000000000000000000000000000#32 = .command .nop := by decide
theorem test_decode_srst : decode 0b00000000000000000000000000000001#32 = .command .srst := by decide
theorem test_decode_sha1Init : decode 0b00000000000000000000000000010000#32 = .command .sha1Init := by decide
theorem test_decode_sha1Block : decode 0b00000000000000000000000000010001#32 = .command .sha1Block := by decide
theorem test_decode_sha1Abort : decode 0b00000000000000000000000000011111#32 = .command .sha1Abort := by decide
theorem test_decode_mexpExp : decode 0b00000000000000000000000000100000#32 = .command .mexpExp := by decide
theorem test_decode_mexpMul : decode 0b00000000000000000000000000100001#32 = .command .mexpMul := by decide
theorem test_decode_mexpAbort : decode 0b00000000000000000000000000101111#32 = .command .mexpAbort := by decide
/-- V-CT-8, V-CT-9. -/
theorem test_decode_illegal : decode 0x00000100#32 = .illegal .rsvdNotZero ∧
    [0x02#32, 0x0F#32, 0x12#32, 0x1E#32, 0x22#32, 0x2E#32, 0x30#32, 0xFF#32].all (fun w => decode w = .illegal .undefinedOp) = true := by decide
/-- The table's numbering: bit 0 is the least significant bit of the one word. -/
theorem test_decodeTableWord : decodeTableWord 32 0x1F = some .sha1Abort ∧ decodeTableWord 8 0x2F = some .mexpAbort ∧
    decodeTableWord 32 0x100 = none := by decide

/-! ### One step -/

/-- The next state of an outcome; every use below is of a next state, or the test would fail. -/
def after (o : Outcome) : State :=
  match o with
  | .next s => s
  | .fault _ => State.reset
  | .refused _ => State.reset

/-- STATUS as a read returns it. -/
def status (s : State) : Word := readReg s offStatus

/-- An instance with NW = 2 right after reset, with these two words in OPA, OPB and MOD. -/
def withOperands (a b m : List Word) : State :=
  State.reset.setMexp { (State.reset).mexp with opa := a, opb := b, mod := m }

/-- Right after reset, with the padded block of "abc" in MSG (V-SH-2). -/
def abc : State :=
  State.reset.setSha { (State.reset).sha with msg := #v[0x61626380, 0, 0, 0, 0, 0, 0, 0, 0, 0, 0, 0, 0, 0, 0, 0x00000018] }

/-- That block accepted. -/
def abcRun : State := sha1Accept abc

/-- 4^13 mod 497 (V-MX-1), loaded. -/
def mx1 : State := withOperands [4, 0] [13, 0] [497, 0]

/-- V-MX-1, accepted. -/
def mx1Run : State := mexpAcceptExp mx1

/-- V-CT-7. -/
theorem test_nop : after (exec .nop abcRun) = abcRun := by decide
/-- V-CT-8: RSVD ≠ 0 is no NOP. -/
theorem test_nop_illegal : status (after (busAccess (cmdWrite 0x00000100) State.reset)) = 0x00000110 := by decide
/-- V-CT-10. -/
theorem test_srst :
    let s := raiseBlockError .illegalCmd (mx1Run.setSha { (State.reset).sha with h := #v[0, 0, 0, 0, 0] })
    status s = 0x00000114 ∧ status (after (exec .srst s)) = 0 ∧
      readReg (after (exec .srst s)) 0x020 = 0x67452301 ∧ readReg (after (exec .srst s)) 0x100 = 0 := by decide
/-- V-SH-8, the unit idle. -/
theorem test_sha1Init :
    (after (exec .sha1Init (State.reset.setSha { (State.reset).sha with h := #v[0, 0, 0, 0, 0] }))).sha.h =
      #v[0x67452301, 0xEFCDAB89, 0x98BADCFE, 0x10325476, 0xC3D2E1F0] := by decide
/-- V-SH-8, the unit busy. -/
theorem test_sha1Init_busy : status (after (exec .sha1Init abcRun)) = 0x00000211 := by decide
/-- V-SH-9: STATUS right after acceptance, and after one step. -/
theorem test_sha1Block : status (after (exec .sha1Block abc)) = 0x00000001 ∧ status (sha1Step abcRun) = 0x00010001 := by decide
/-- V-SH-2: the working variables after round 0. -/
theorem test_sha1Round : (sha1Step abcRun).sha.work = ⟨0x0116FC33, 0x67452301, 0x7BF36AE2, 0x98BADCFE, 0x10325476⟩ := by decide

/-- V-SH-2 after round 79. -/
def abcLast : State :=
  abcRun.setSha { abcRun.sha with t := 80, work := ⟨0x42541B35, 0x5738D5E1, 0x21834873, 0x681E6DF6, 0xD8FDF6AD⟩ }

/-- V-SH-2, V-SH-9: the completion. -/
theorem test_sha1Complete : status abcLast = 0x00500001 ∧ status (sha1Step abcLast) = 0x00000002 ∧
    (sha1Step abcLast).sha.h = #v[0xA9993E36, 0x4706816A, 0xBA3E2571, 0x7850C26C, 0x9CD0D89D] := by decide
/-- V-SH-9: the abort after 37 steps. -/
theorem test_sha1Abort :
    status (abcRun.setSha { abcRun.sha with t := 37 }) = 0x00250001 ∧
    status (after (exec .sha1Abort (abcRun.setSha { abcRun.sha with t := 37 }))) = 0 ∧
    (after (exec .sha1Abort abcRun)).sha.h = iv := by decide
/-- V-MX-1: acceptance, and the first step. -/
theorem test_mexpExp :
    (mx1Run.mexp.m, mx1Run.mexp.b, mx1Run.mexp.e, mx1Run.mexp.r) = (497, 4, 13, 1) ∧ after (exec .mexpExp mx1) = mx1Run ∧
    ((mexpStep mx1Run).mexp.b, (mexpStep mx1Run).mexp.e, (mexpStep mx1Run).mexp.r) = (16, 6, 4) := by decide
/-- V-MX-3: MOD = 0, and an illegal word before the busy check. -/
theorem test_mexpExp_rejected : status (after (exec .mexpExp State.reset)) = 0x00000410 ∧
    status (after (busAccess (cmdWrite 0x00000120) mx1Run)) = 0x00000114 := by decide
/-- V-MM-6: 2^32 · 2^32 mod (2^64 - 1) = 1, in words, after one step. -/
theorem test_mexpMul :
    (mexpStep (after (exec .mexpMul (withOperands [0, 1] [0, 1] [0xFFFFFFFF, 0xFFFFFFFF])))).mexp.result = [1, 0] := by decide
/-- V-MM-1: the product in u.r; and V-MX-3: rejected while the unit is busy. -/
theorem test_mexpMul_accepted : (after (exec .mexpMul (withOperands [3, 0] [4, 0] [5, 0]))).mexp.r = 2 ∧
    status (after (exec .mexpMul mx1Run)) = 0x00000314 := by decide
/-- V-MX-3: the abort leaves RESULT. -/
theorem test_mexpAbort :
    let s := mx1Run.setMexp { mx1Run.mexp with result := [7, 0] }
    status (after (exec .mexpAbort s)) = 0 ∧ readReg (after (exec .mexpAbort s)) 0x400 = 7 := by decide
/-- V-MX-3: a write to OPA0 while the unit is busy. -/
theorem test_busy_write : status (after (busAccess (Txn.memWrite 0x100 4 9) mx1Run)) = 0x00000314 ∧
    readReg (after (busAccess (Txn.memWrite 0x100 4 9) mx1Run)) 0x100 = 4 := by decide
/-- V-CT-11, V-CT-15. -/
theorem test_irqEn_status : readReg (after (busAccess (Txn.memWrite 0x010 4 0xFFFFFFFF) State.reset)) 0x010 = 7 ∧
    status (statusW1c 0xFFFFFFFF (raiseBlockError .modZero abcLast)) = 0x00500001 := by decide
/-- V-CT-4: reserved offsets read 0. -/
theorem test_reserved : [0x014#12, 0x034#12, 0x080#12, 0x108#12, 0x408#12, 0x500#12, 0xFFC#12].all (fun off =>
    readReg State.reset off = 0) = true := by decide
/-- V-CT-16. -/
theorem test_bus_error : admitted (Txn.memRead 0x002 4) = false ∧ admitted (Txn.memRead 0x000 1) = false := by decide
/-- V-SH-4, V-SH-5. -/
theorem test_functions : roundF 0 0xF0F0F0F0 0xFF00FF00 0x0F0F0F0F = 0xFF0FFF0F ∧ roundF 20 0 0xFFFFFFFF 0x12345678 = 0xEDCBA987 ∧
    roundF 40 0xF0F0F0F0 0xFF00FF00 0x0F0F0F0F = 0xFF00FF00 ∧ rotl32 0x80000001 30 = 0x60000000 := by decide
/-- V-SH-7: the padding of "abc". -/
theorem test_padding : padZeros 3 = 52 ∧ padZeros 56 = 63 ∧ packWord (pad [0x61, 0x62, 0x63]) 0 = 0x61626380 ∧
    packWord (pad [0x61, 0x62, 0x63]) 15 = 0x00000018 := by decide

/-- A command word placed for the next step is what the next step runs. -/
theorem test_withFetchWord : step (State.reset.withFetchWord 32 0x11) = exec .sha1Block State.reset ∧
    step (State.reset.withFetchWord 32 0x100) = .next (raiseBlockError .illegalCmd State.reset) := ⟨rfl, rfl⟩
/-- R90: `ld.opa`, and `wait.mexp` standing at statement 3. -/
theorem test_expansions : ldOpa 2 (2 ^ 32) = .ok [.wr 0x100 (.imm 0), .wr 0x104 (.imm 1)] ∧
    waitMexp 3 = [.rd 15 0x00C, .andi 15 15 4, .bne 15 0 3] ∧ stmtCommand .sha1Abort = .wr 0x008 (.imm 0x1F) := ⟨rfl, rfl, rfl⟩
/-- R90, U14: the largest operand of 2 words is loaded; a larger and a negative one are refused by name. -/
theorem test_ldOperand_fits : ldMod 2 (2 ^ 64 - 1) = .ok [.wr 0x300 (.imm 0xFFFFFFFF), .wr 0x304 (.imm 0xFFFFFFFF)] ∧
    ldMod 2 (2 ^ 64) = .error .operandNotRepresentable ∧ ldOpb 2 (-1) = .error .operandNotRepresentable := ⟨rfl, rfl, rfl⟩
/-- R152: the driver of one block: SHA1.INIT, 16 words, SHA1.BLOCK, a poll of 3 statements, the check of 3 statements that goes
to the halt, 5 reads, halt. -/
theorem test_driver : (sha1Driver [abc.sha.msg]).length = 30 ∧ programWellFormed (sha1Driver [abc.sha.msg]) = true ∧
    (sha1Driver [abc.sha.msg]).drop 21 = [.rd 6 0x00C, .andi 6 6 0x12, .bne 6 0x02 29, .rd 1 0x020, .rd 2 0x024, .rd 3 0x028,
      .rd 4 0x02C, .rd 5 0x030, .halt] := by decide

/-! ### Witnesses: each statement's hypotheses can be met, clause by clause, at the ends of their ranges -/

/-- Scheduled next: these agents. -/
def thenAgents (s : State) (as : List Agent) : State := s.setSchedule as

/-- The SHA1 unit of the running block at round `t`. -/
def abcAt (t : Fin 81) : State := abcRun.setSha { abcRun.sha with t := t }

/-- A host that is about to execute one statement. -/
def hosting (st : Stmt) : State := State.reset.setHost { (State.reset).host with prog := [st] }

theorem witness_paramInv : ParamInv State.reset ∧ ParamInv mx1Run ∧ ParamInv (State.resetOf 1) ∧ ParamInv (State.resetOf 64) := by
  unfold ParamInv
  decide

theorem witness_StepRunsTheDecodedCommand :
    (thenAgents abc [.bus (cmdWrite 0x11)]).schedule = .bus (cmdWrite 0x11) :: [] ∧ decode 0x11 = .command .sha1Block := by decide

theorem witness_StepIsTheStepOfTheNextAgent :
    (thenAgents abc [.reset, .sha1]).schedule = .reset :: [.sha1] ∧ (State.reset).schedule = [] := by decide

/-- R83: each half of the condition, at the ends of the ranges. -/
theorem witness_IllegalWordOnlyRaisesIllegalCmd :
    (0x00000100#32).toNat / 256 ≠ 0 ∧ (0xFFFFFF00#32).toNat / 256 ≠ 0 ∧
    (0x00000002#32).toNat % 256 ∉ [0x00, 0x01, 0x10, 0x11, 0x1F, 0x20, 0x21, 0x2F] ∧
    (0x000000FF#32).toNat % 256 ∉ [0x00, 0x01, 0x10, 0x11, 0x1F, 0x20, 0x21, 0x2F] := by decide

/-- The illegal words of the clauses of NOP, SRST, SHA1.INIT and of the write to CMD in the reserved space. -/
theorem witness_illegal_words :
    ((0x00000100#32).toNat % 256 = 0x00 ∧ (0x00000100#32).toNat / 256 ≠ 0) ∧
    ((0x80000001#32).toNat % 256 = 0x01 ∧ (0x80000001#32).toNat / 256 ≠ 0) ∧
    ((0x00000110#32).toNat % 256 = 0x10 ∧ (0x00000110#32).toNat / 256 ≠ 0) := by decide

theorem witness_RaiseKeepsTheFirstError : (State.reset).biu.err = false ∧ (raiseBlockError .modZero State.reset).biu.err = true ∧
    (0x000#12).toNat % 4 = 0 ∧ (0xFFC#12).toNat % 4 = 0 := by decide

/-- The idle and the running SHA1 unit: SHA1.INIT, SHA1.BLOCK, SHA1.ABORT. -/
theorem witness_sha_phases : abc.sha.phase = .idle ∧ abcRun.sha.phase = .run ∧ DoneInv abcRun := by
  unfold DoneInv
  decide

theorem witness_sha1Step_next : agentStep .sha1 abcRun = .next (sha1Step abcRun) ∧ agentStep .sha1 abc = .next (sha1Step abc) :=
  ⟨rfl, rfl⟩

/-- The MEXP unit: idle with MOD ≠ 0, idle with MOD = 0, and each busy phase. -/
theorem witness_mexp_phases :
    (mx1.mexp.phase = .idle ∧ modValue mx1 ≠ 0) ∧ ((State.reset).mexp.phase = .idle ∧ modValue State.reset = 0) ∧
    (mx1Run.mexp.phase = .exp ∧ mx1Run.mexp.e ≠ 0) ∧ (mexpAcceptMul mx1).mexp.phase = .mul ∧
    ((mexpAcceptExp (withOperands [4, 0] [0, 0] [497, 0])).mexp.phase = .exp ∧
      (mexpAcceptExp (withOperands [4, 0] [0, 0] [497, 0])).mexp.e = 0) ∧ DoneInv mx1Run := by
  unfold DoneInv
  decide

theorem witness_MexpCommandsAreRejectedInOrder : (Instr.mexpExp = .mexpExp ∨ Instr.mexpExp = .mexpMul) ∧
    (Instr.mexpMul = .mexpExp ∨ Instr.mexpMul = .mexpMul) := by decide

/-- Every command answers a next state: one of each group of the frames. -/
theorem witness_CommandFrames : exec .nop mx1 = .next mx1 ∧ exec .srst mx1 = .next (resetAll mx1) ∧
    exec .sha1Block abc = .next abcRun ∧ exec .sha1Abort abc = .next abc ∧ exec .mexpExp mx1 = .next mx1Run ∧
    exec .mexpAbort mx1 = .next mx1 := ⟨rfl, rfl, rfl, rfl, rfl, rfl⟩

/-- Two states with the same MEXP unit and another SHA1 unit, and the other way round. -/
theorem witness_UnitsDoNotDependOnEachOther :
    (abc.nw = State.reset.nw ∧ abc.mexp = State.reset.mexp ∧ abc ≠ State.reset ∧ ∃ t t', exec .mexpMul abc = .next t ∧
      exec .mexpMul State.reset = .next t') ∧
    (mx1.sha = State.reset.sha ∧ mx1 ≠ State.reset ∧ ∃ t t', exec .sha1Block mx1 = .next t ∧
      exec .sha1Block State.reset = .next t') :=
  ⟨⟨rfl, rfl, by decide, _, _, rfl, rfl⟩, rfl, by decide, _, _, rfl, rfl⟩

/-- The ends of the ranges of the round index (R132), of the shift (R10) and of the schedule index (R133). -/
theorem witness_ranges : (19 < 20 ∧ 20 ≤ 20 ∧ 39 < 40 ∧ 40 ≤ 40 ∧ 59 < 60 ∧ 60 ≤ 60 ∧ 79 < 80) ∧ (0 < 1 ∧ 31 < 32) ∧
    (15 < 16 ∧ 16 ≤ 16) := by decide

/-- The running unit before its first round, at the last round that takes a word of MSG, at the first that extends the schedule, at the
last round, and before the completion. -/
theorem witness_ShaRoundStep : (∀ t ∈ [(0 : Fin 81), 15, 16, 79], (abcAt t).sha.phase = .run ∧ (abcAt t).sha.t.val < 80) ∧
    ((abcAt 80).sha.phase = .run ∧ (abcAt 80).sha.t.val = 80) := by decide

/-- A unit on the way to its digest: idle, and right after acceptance. -/
theorem witness_shaTracks : ShaTracks abc ∧ ShaTracks abcRun := by
  refine ⟨(fun h => nomatch h), fun _ => ⟨rfl, ?_⟩⟩
  intro j hj _
  have hj : j < 16 := by
    have : max (abcRun.sha.t.val) 16 = 16 := by decide
    omega
  rw [scheduleWord_eq _ 0 j (by omega) (by omega)]
  simp only [schedulePart, Nat.mod_eq_of_lt hj]
  simp [hj, abcRun, sha1Accept]

/-- A unit on the way to its result: idle, and right after each acceptance. -/
theorem witness_mexpTracks : MexpTracks mx1 ∧ MexpTracks mx1Run ∧ MexpTracks (mexpAcceptMul mx1) := by
  unfold MexpTracks
  decide

theorem witness_stateInv : StateInv State.reset ∧ StateInv abcRun ∧ StateInv mx1Run ∧ StateInv (mexpAcceptMul mx1) := by
  refine ⟨⟨?_, ?_, ?_, ?_, ?_⟩, ⟨?_, ?_, ?_, ?_, ?_⟩, ⟨?_, ?_, ?_, ?_, ?_⟩, ?_, ?_, ?_, ?_, ?_⟩ <;>
    first | (unfold ParamInv; decide) | (unfold ErrInv; decide) | (unfold DoneInv; decide) | (unfold ShaIdleInv; decide) |
      (unfold MexpRangeInv operandBits; decide)

/-- Steps from states of the invariants, with a busy unit before and after: the hypotheses of the invariants and of the
whole-machine rules over `step`. -/
theorem witness_steps :
    step (thenAgents abcRun [.sha1]) = .next (sha1Step (thenAgents abcRun [])) ∧
    shaBusy (thenAgents abcRun [.sha1]) = true ∧ shaBusy (sha1Step (thenAgents abcRun [])) = true ∧
    step (thenAgents mx1Run [.mexp]) = .next (mexpStep (thenAgents mx1Run [])) ∧
    mexpBusy (thenAgents mx1Run [.mexp]) = true ∧ mexpBusy (mexpStep (thenAgents mx1Run [])) = true := by
  refine ⟨rfl, ?_, ?_, rfl, ?_, ?_⟩ <;> decide

/-- The states those steps start from meet the invariants. -/
theorem witness_invariants_at_steps : StateInv (thenAgents abcRun [.sha1]) ∧ StateInv (thenAgents mx1Run [.mexp]) ∧
    ShaTracks (thenAgents abcRun [.sha1]) ∧ MexpTracks (thenAgents mx1Run [.mexp]) :=
  ⟨witness_stateInv.2.1, witness_stateInv.2.2.1, witness_shaTracks.2, witness_mexpTracks.2.1⟩

/-- RESULT changes: in a completion, in a reset and in a write of SRST. -/
theorem witness_ResultIsWrittenOnlyByCompletionAndReset :
    let s := mexpAcceptMul (withOperands [3, 0] [4, 0] [5, 0])
    let d := s.setMexp { s.mexp with result := [7, 0] }
    (agentStep .mexp s = .next (mexpStep s) ∧ (mexpStep s).mexp.result ≠ s.mexp.result) ∧
    (agentStep .reset d = .next (resetAll d) ∧ (resetAll d).mexp.result ≠ d.mexp.result) ∧
    (agentStep (.bus (cmdWrite 1)) d = .next (resetAll d)) := ⟨⟨rfl, by decide⟩, ⟨rfl, by decide⟩, rfl⟩

/-- H changes: in a completion and in a write to H4; MSG changes: in a write to MSG15. -/
theorem witness_ChainingValueChangesOnlyAsListed :
    (agentStep .sha1 abcLast = .next (sha1Step abcLast) ∧ (sha1Step abcLast).sha.h ≠ abcLast.sha.h) ∧
    (∃ t, agentStep (.bus (Txn.memWrite 0x030 4 5)) abc = .next t ∧ t.sha.h ≠ abc.sha.h) ∧
    (∃ t, agentStep (.bus (Txn.memWrite 0x07C 4 5)) abc = .next t ∧ t.sha.msg ≠ abc.sha.msg) :=
  ⟨⟨rfl, by decide⟩, ⟨_, rfl, by decide⟩, ⟨_, rfl, by decide⟩⟩

theorem witness_BlockCommandComputesCompress :
    (thenAgents abc (.bus (cmdWrite 0x11) :: (List.replicate 81 .sha1 ++ [.reset]))).sha.phase = .idle ∧
    (thenAgents abc (.bus (cmdWrite 0x11) :: (List.replicate 81 .sha1 ++ [.reset]))).schedule =
      .bus (cmdWrite 0x00000011) :: (List.replicate 81 .sha1 ++ [.reset]) := ⟨rfl, rfl⟩

/-- OPB = 0: the completion is the only unit step. -/
theorem witness_ExpCommandComputesModExp_zero :
    let s := thenAgents (withOperands [4, 0] [0, 0] [497, 0]) (.bus (cmdWrite 0x20) :: (List.replicate 1 .mexp ++ []))
    ParamInv s ∧ s.mexp.phase = .idle ∧ modValue s ≠ 0 ∧ bitlen (opbValue s) + 1 = 1 ∧
      s.schedule = .bus (cmdWrite 0x00000020) :: (List.replicate (bitlen (opbValue s) + 1) .mexp ++ []) := by
  unfold ParamInv
  decide

theorem witness_ExpCommandComputesModExp :
    let s := thenAgents mx1 (.bus (cmdWrite 0x20) :: (List.replicate 5 .mexp ++ []))
    ParamInv s ∧ s.mexp.phase = .idle ∧ modValue s ≠ 0 ∧
      s.schedule = .bus (cmdWrite 0x00000020) :: (List.replicate (bitlen (opbValue s) + 1) .mexp ++ []) := by
  unfold ParamInv
  decide

theorem witness_MulCommandComputesModMul :
    let s := thenAgents mx1 [.bus (cmdWrite 0x21), .mexp]
    ParamInv s ∧ s.mexp.phase = .idle ∧ modValue s ≠ 0 ∧ s.schedule = .bus (cmdWrite 0x00000021) :: .mexp :: [] := by
  unfold ParamInv
  decide

theorem witness_EveryInterleavingGivesBothResults :
    let as := List.replicate 5 .mexp ++ .bus (Txn.memRead 0x00C 4) :: List.replicate 81 .sha1
    let s := thenAgents mx1 (.bus (cmdWrite 0x11) :: .bus (cmdWrite 0x20) :: (as ++ []))
    ParamInv s ∧ s.sha.phase = .idle ∧ s.mexp.phase = .idle ∧ modValue s ≠ 0 ∧ (∀ a ∈ as, Quiet a) ∧
      81 ≤ as.count .sha1 ∧ bitlen (opbValue s) + 1 ≤ as.count .mexp ∧
      s.schedule = .bus (cmdWrite 0x00000011) :: .bus (cmdWrite 0x00000020) :: (as ++ []) := by
  refine ⟨by unfold ParamInv; decide, rfl, rfl, by decide, ?_, by decide, by decide, rfl⟩
  intro a ha
  simp only [List.mem_append, List.mem_cons, List.mem_replicate] at ha
  rcases ha with ⟨-, rfl⟩ | rfl | ⟨-, rfl⟩
  · exact .inr (.inl rfl)
  · exact .inr (.inr ⟨_, rfl, rfl, rfl⟩)
  · exact .inl rfl

/-- The units step in turn. -/
def turns (n : Nat) : Agent := if n % 2 = 0 then .sha1 else .mexp

/-- The run of both units from a state in which both are busy. -/
def turnsFrom : Nat → State
  | 0 => sha1Accept mx1Run
  | n + 1 => if n % 2 = 0 then sha1Step (turnsFrom n) else mexpStep (turnsFrom n)

/-- A weakly fair run from a state with both units busy. -/
theorem witness_BusyUnitsFinishUnderWeakFairness :
    IsRun turns turnsFrom ∧ WeaklyFair turns turnsFrom ∧ shaBusy (turnsFrom 0) = true ∧ mexpBusy (turnsFrom 0) = true := by
  refine ⟨?_, ⟨?_, ?_⟩, by decide, by decide⟩
  · intro n
    simp only [turns, turnsFrom]
    split <;> rfl
  · intro n _
    exact ⟨2 * n, by omega, by simp [turns]⟩
  · intro n _
    exact ⟨2 * n + 1, by omega, by simp [turns]⟩

theorem witness_reset_range : (1 ≤ 1 ∧ 1 ≤ 64) ∧ (1 ≤ 64 ∧ 64 ≤ 64) ∧ Aligned 0x000 ∧ Aligned 0xFFC ∧ mx1Run.nw = 2 := by
  unfold Aligned
  decide

/-- A completion of each unit from a clear DONE bit, and a write that sets ERR. -/
theorem witness_CompletionAndErrorNeverMeet :
    (agentStep .sha1 abcLast = .next (sha1Step abcLast) ∧ abcLast.biu.shaDone = false ∧ (sha1Step abcLast).biu.shaDone = true) ∧
    (let m := mexpAcceptMul mx1
     agentStep .mexp m = .next (mexpStep m) ∧ m.biu.mexpDone = false ∧ (mexpStep m).biu.mexpDone = true) ∧
    (agentStep (.bus (cmdWrite 2)) abc = .next (raiseBlockError .illegalCmd abc) ∧ abc.biu.err = false ∧
      (raiseBlockError .illegalCmd abc).biu.err = true) :=
  ⟨⟨rfl, by decide, by decide⟩, ⟨rfl, by decide, by decide⟩, rfl, by decide, by decide⟩

/-- A second error while the first stands. -/
theorem witness_ErrCodeStaysWhileErrStays :
    let s := thenAgents (raiseBlockError .modZero abc) [.bus (cmdWrite 2)]
    step s = .next (raiseBlockError .illegalCmd (s.setSchedule [])) ∧ s.biu.err = true ∧
      (raiseBlockError .illegalCmd (s.setSchedule [])).biu.err = true := ⟨rfl, by decide, by decide⟩

theorem witness_InterruptEnablesChangeOnlyAsListed :
    agentStep (.bus (Txn.memWrite 0x010 4 7)) abc = .next (writeIrqEn 7 abc) ∧ (writeIrqEn 7 abc).biu.irqEn ≠ abc.biu.irqEn :=
  ⟨rfl, by decide⟩

/-- The ends of the ranges of a read: ID and the last word; H0, H4; MSG0, MSG15; and the operand words, NW = 2. -/
theorem witness_ReadsChangeNothing : ((0x000#12).toNat % 4 = 0 ∧ (0xFFC#12).toNat % 4 = 0) ∧
    ((0x020#12).toNat = 0x020 + 4 * (0 : Fin 5).val ∧ (0x030#12).toNat = 0x020 + 4 * (4 : Fin 5).val) ∧
    ((0x040#12).toNat = 0x040 + 4 * (0 : Fin 16).val ∧ (0x07C#12).toNat = 0x040 + 4 * (15 : Fin 16).val) ∧
    (1 < mx1Run.nw ∧ (0x104#12).toNat = 0x100 + 4 * 1 ∧ (0x204#12).toNat = 0x200 + 4 * 1 ∧ (0x304#12).toNat = 0x300 + 4 * 1 ∧
      (0x404#12).toNat = 0x400 + 4 * 1) := by decide

/-- R64: the wrong sizes, the wrong offsets, and the last word of the window. -/
theorem witness_OnlyAlignedWordsAreAdmitted : (Txn.memRead 0x000 2).size ≠ 4 ∧ (Txn.memRead 0x000 8).size ≠ 4 ∧
    (Txn.memRead 0xFFF 4).off.toNat % 4 ≠ 0 ∧ (Txn.memRead 0x001 4).off.toNat % 4 ≠ 0 ∧
    ((Txn.memWrite 0xFFC 4 0).size = 4 ∧ (Txn.memWrite 0xFFC 4 0).off.toNat % 4 = 0) := by decide

theorem witness_OnlyBusErrorsStopTheMachine :
    (nextAgent (thenAgents abc [.bus (Txn.memRead 0x002 4)]) = .bus (Txn.memRead 0x002 4)) ∧
    (nextAgent (thenAgents (hosting (.rd 1 0x003)) [.program]) = .program ∧ (hosting (.rd 1 0x003)).host.halted = false ∧
      (hosting (.rd 1 0x003)).host.prog[(hosting (.rd 1 0x003)).host.pc]? = some (.rd 1 0x003)) := by decide

/-- The first and the last word of RESULT, for NW = 1, 2 and 64. -/
theorem witness_ReadOnlyRegisters : ResultWord 1 0x400 ∧ ResultWord 2 0x404 ∧ ResultWord 64 0x4FC := by
  unfold ResultWord Aligned
  decide

/-- The ends of every reserved range, for NW = 1; for NW = 64 the operand ranges leave none. -/
theorem witness_ReservedSpace :
    ReservedOffset 1 0x014 ∧ ReservedOffset 1 0x01C ∧ ReservedOffset 1 0x034 ∧ ReservedOffset 1 0x03C ∧ ReservedOffset 1 0x080 ∧
    ReservedOffset 1 0x0FC ∧ ReservedOffset 1 0x104 ∧ ReservedOffset 1 0x1FC ∧ ReservedOffset 1 0x204 ∧ ReservedOffset 1 0x2FC ∧
    ReservedOffset 1 0x304 ∧ ReservedOffset 1 0x3FC ∧ ReservedOffset 1 0x404 ∧ ReservedOffset 1 0x4FC ∧ ReservedOffset 64 0x500 ∧
    ReservedOffset 64 0xFFC ∧ ¬ ReservedOffset 64 0x1FC ∧ ¬ ReservedOffset 64 0x010 ∧ ¬ ReservedOffset 64 0x07C := by
  unfold ReservedOffset Aligned
  repeat' apply And.intro
  all_goals decide

/-- Two values of STATUS and two of IRQ_EN that differ in reserved bits only. -/
theorem witness_reserved_bits :
    (0xFF8000C0#32 &&& 0x007FFF3F#32 = 0#32 &&& 0x007FFF3F#32) ∧ (0xFFFFFFFF#32 &&& 0x00000007#32 = 7#32 &&& 0x00000007#32) := by
  decide

/-- The ends of the ranges of the input registers, and each unit idle and busy. -/
theorem witness_inputs :
    (ShaInput 0x020 ∧ ShaInput 0x030 ∧ ShaInput 0x040 ∧ ShaInput 0x07C ∧ ¬ ShaInput 0x034 ∧ ¬ ShaInput 0x01C) ∧
    (MexpInput 2 0x100 ∧ MexpInput 2 0x104 ∧ MexpInput 2 0x200 ∧ MexpInput 2 0x204 ∧ MexpInput 2 0x300 ∧ MexpInput 2 0x304 ∧
      MexpInput 64 0x3FC ∧ ¬ MexpInput 2 0x108 ∧ ¬ MexpInput 64 0x400) ∧
    shaBusy abc = false ∧ shaBusy abcRun = true ∧ mexpBusy mx1 = false ∧ mexpBusy mx1Run = true := by
  unfold ShaInput MexpInput Aligned
  repeat' apply And.intro
  all_goals decide

/-- A write that is stored, and one that is rejected. -/
theorem witness_RepeatedWritesAreIdempotent : (0x020#12 ≠ offCmd ∧ 0x00C#12 ≠ offCmd) ∧
    (∃ t, busAccess (Txn.memWrite 0x020 4 5) abc = .next t) ∧ ∃ t, busAccess (Txn.memWrite 0x020 4 5) abcRun = .next t :=
  ⟨by decide, ⟨_, rfl⟩, _, rfl⟩

/-- The first and the last word of an operand, and the largest value that fits. -/
theorem witness_OperandsAreLittleEndianByWord : 0 < 2 ∧ 1 < 2 ∧ 2 ^ 64 - 1 < 2 ^ (32 * 2) ∧ 1 < mx1.nw := by decide

theorem witness_BusAddressesGiveTheirOffset : Config.blockBase ≤ Config.blockBase ∧ Config.blockBase ≤ Config.blockBase + 4095 :=
  ⟨Nat.le_refl _, Nat.le_add_right _ _⟩

theorem witness_HostBusStatements :
    (hosting (.wr 0xFFC (.reg 3))).host.halted = false ∧
    (hosting (.wr 0xFFC (.reg 3))).host.prog[(hosting (.wr 0xFFC (.reg 3))).host.pc]? = some (.wr 0xFFC (.reg 3)) ∧
    (hosting (.rd 15 0x000)).host.prog[(hosting (.rd 15 0x000)).host.pc]? = some (.rd 15 0x000) ∧
    (0xFFC#12).toNat % 4 = 0 ∧ (0x000#12).toNat % 4 = 0 := by decide

/-- Each computation statement as the next one of a host that has not halted. -/
theorem witness_HostComputationStatements :
    [Stmt.li 0 1, .mv 15 0, .andi 1 1 3, .addi 1 1 0xFFFFFFFF, .beq 0 0 7, .bne 0 0 7, .beqr 0 0 7, .jmp 7, .halt].all (fun st =>
      (hosting st).host.halted = false ∧ (hosting st).host.prog[(hosting st).host.pc]? = some st) = true := by decide

theorem witness_EndedRunsStay : RunEnded (State.reset.setHost { (State.reset).host with halted := true }) := by
  unfold RunEnded
  decide

theorem witness_PaddingFillsWholeBlocks : 8 * ([0x61, 0x62, 0x63] : List Byte).length < 2 ^ 64 := by decide

/-- The first and the only block of "abc", and the ends of the ranges of lengths. -/
theorem witness_BlocksAreCutAndPackedBigEndian :
    0 < (([0x61, 0x62, 0x63] : List Byte).length + 8) / 64 + 1 ∧ 55 ≤ 55 ∧ 56 ≤ 56 ∧ 119 ≤ 119 := by decide

theorem witness_DigestForms : (0 < 20 ∧ 19 < 20) ∧ (0 < 40 ∧ 39 < 40) ∧ (0 < 8 ∧ 7 < 8) ∧ (0 < 4 ∧ 3 < 4) := by decide

/-- A message that is short enough and one that is not; the smallest and the largest operand, and the two next to them. -/
theorem witness_HostProceduresRefuseOnlyWhatDoesNotFit :
    ([] : List Byte).length < 2 ^ 61 ∧ 2 ^ 61 ≤ (List.replicate (2 ^ 61) (0 : Byte)).length ∧
    ((0 : Int) ≤ 0 ∧ (0 : Int) < 2 ^ (32 * 2)) ∧ (2 ^ 64 - 1 : Int) < 2 ^ (32 * 2) ∧ (-1 : Int) < 0 ∧
    (2 ^ (32 * 2) : Int) ≤ 2 ^ 64 := by
  exact ⟨by decide, Nat.le_of_eq List.length_replicate.symm, ⟨by decide, by decide⟩, by decide, by decide, by decide⟩

end Sys2Proof.Tests
end

section
/-! SUPPORT. The fixed words of the window (10_state.md R25): what a read of each returns and what a write to it does. Each is the
register map at one offset, so that no proof walks the map. -/

namespace Sys2Proof.Machine

variable (s : State) (v : Word)

@[simp] theorem readReg_offId : readReg s offId = idValue := rfl
@[simp] theorem readReg_offParam : readReg s offParam = paramWord s := rfl
@[simp] theorem readReg_offStatus : readReg s offStatus = statusWord s := rfl
@[simp] theorem readReg_offIrqEn : readReg s offIrqEn = irqEnWord s := rfl

theorem busAccess_write_offParam : busAccess (Txn.memWrite offParam 4 v) s = .next s :=
  busAccess_memWrite v s (by decide)

theorem busAccess_write_offCmd : busAccess (Txn.memWrite offCmd 4 v) s = command v s :=
  busAccess_memWrite v s (by decide)

theorem busAccess_write_offStatus : busAccess (Txn.memWrite offStatus 4 v) s = .next (statusW1c v s) :=
  busAccess_memWrite v s (by decide)

theorem busAccess_write_offIrqEn : busAccess (Txn.memWrite offIrqEn 4 v) s = .next (writeIrqEn v s) :=
  busAccess_memWrite v s (by decide)

/-- A word with any of RSVD set is illegal, and only that is recorded (R83, R100). -/
theorem command_of_rsvd_ne_zero {v : Word} (hv : v.toNat / 256 ≠ 0) :
    command v s = .next (raiseBlockError .illegalCmd s) := by
  have hd : decode v = .illegal .rsvdNotZero := if_pos (mt (rsvdField_eq_zero_iff v).mp hv)
  simp only [command, hd]

/-- A reserved offset reads 0 (R34). -/
theorem readReg_reserved {off : Offset} (h : registerAt s.nw off = .reserved) : readReg s off = 0 := by
  simp only [readReg, h]

/-- A write to a reserved offset is ignored (R34). -/
theorem writeReg_reserved {off : Offset} (h : registerAt s.nw off = .reserved) : writeReg off v s = .next s := by
  simp only [writeReg, h]

end Sys2Proof.Machine
end

section
/-! SUPPORT. Masks and fields of a word, bit by bit (10_state.md R29, R30, R34). -/

namespace Sys2Proof.Machine

/-- Two words that agree under a mask agree in every bit of the mask. -/
theorem getLsbD_eq_of_and_eq {v v' m : Word} (h : v &&& m = v' &&& m) {i : Nat} (hi : m.getLsbD i = true) :
    v.getLsbD i = v'.getLsbD i := by
  have hb := congrArg (BitVec.getLsbD · i) h
  simpa only [BitVec.getLsbD_and, hi, Bool.and_true] using hb

/-- A zero-extended field has no bit above its width. -/
theorem setWidth_and_upper_eq_zero {k : Nat} (x : BitVec k) : x.setWidth 32 &&& BitVec.allOnes 32 <<< k = 0 := by
  refine BitVec.eq_of_getLsbD_eq fun i hi => ?_
  by_cases hk : i < k
  · simp [hk]
  · simp [BitVec.getLsbD_of_ge x i (by omega)]

/-- The reserved bits of STATUS, [7:6] and [31:23], are 0 (R29). -/
theorem statusWord_reserved (s : State) {i : Nat} (hi : (i = 6 ∨ i = 7) ∨ 23 ≤ i) : (statusWord s).getLsbD i = false := by
  rw [statusWord_getLsbD]
  obtain (rfl | rfl) | hi := hi
  · simp
  · simp
  · repeat rw [if_neg (by omega)]

/-- A field of STATUS made of reserved bits is 0 (R34). -/
theorem statusWord_reserved_field (s : State) {start len : Nat}
    (h : ∀ i, i < len → (start + i = 6 ∨ start + i = 7) ∨ 23 ≤ start + i) : (statusWord s).extractLsb' start len = 0 := by
  refine BitVec.eq_of_getLsbD_eq fun i hi => ?_
  simp [statusWord_reserved s (h i hi)]

/-- The reserved bits of STATUS, as a mask (R34). -/
theorem statusWord_and_reserved (s : State) : statusWord s &&& 0xFF8000C0#32 = 0 := by
  have hmask : ∀ i < 32, (0xFF8000C0#32).getLsbD i = true → (i = 6 ∨ i = 7) ∨ 23 ≤ i := by decide
  refine BitVec.eq_of_getLsbD_eq fun i hi => ?_
  rw [BitVec.getLsbD_and]
  cases hm : (0xFF8000C0#32).getLsbD i with
  | false => simp
  | true => simp [statusWord_reserved s (hmask i hi hm)]

/-- ERRCODE is bits [15:8] of STATUS (R29). -/
theorem statusWord_errCode (s : State) : (statusWord s).extractLsb' 8 8 = s.biu.errCode.byte := by
  refine BitVec.eq_of_getLsbD_eq fun i hi => ?_
  rw [BitVec.getLsbD_extractLsb', statusWord_getLsbD, if_pos (show 8 + i < 16 by omega)]
  repeat rw [if_neg (by omega)]
  simp [hi]

/-- SHA_ROUND, bits [22:16] of STATUS, is u.t (R29, R43). -/
theorem statusWord_shaRound (s : State) : ((statusWord s).extractLsb' 16 7).toNat = s.sha.t.val := by
  have hx : (statusWord s).extractLsb' 16 7 = BitVec.ofNat 7 s.sha.t.val := by
    refine BitVec.eq_of_getLsbD_eq fun i hi => ?_
    rw [BitVec.getLsbD_extractLsb', statusWord_getLsbD, if_pos (show 16 + i < 23 by omega)]
    repeat rw [if_neg (by omega)]
    simp [hi]
  have ht := s.sha.t.isLt
  rw [hx, BitVec.toNat_ofNat]
  omega

/-- A write to STATUS looks at bits 1, 3 and 4 of the word only (R29). -/
theorem statusW1c_congr {v v' : Word} (s : State) (h1 : v.getLsbD 1 = v'.getLsbD 1) (h3 : v.getLsbD 3 = v'.getLsbD 3)
    (h4 : v.getLsbD 4 = v'.getLsbD 4) : statusW1c v s = statusW1c v' s := by
  simp only [statusW1c, h1, h3, h4]

/-- A write to IRQ_EN looks at bits [2:0] of the word only (R30). -/
theorem writeIrqEn_congr {v v' : Word} (s : State) (h : ∀ i, i < 3 → v.getLsbD i = v'.getLsbD i) :
    writeIrqEn v s = writeIrqEn v' s := by
  have hx : v.extractLsb' 0 3 = v'.extractLsb' 0 3 :=
    BitVec.eq_of_getLsbD_eq fun i hi => by simp [hi, h i hi]
  simp only [writeIrqEn, hx]

end Sys2Proof.Machine
end

section
/-! SUPPORT. A write to an input register, with its read-back (10_state.md R35, R37). -/

namespace Sys2Proof.Machine

open Sys2Proof.Safety

variable {s : State} {off : Offset}

/-- A write to H or MSG is the busy-checked store of the SHA1 unit, and what it stores is what a read then returns. -/
theorem busAccess_write_shaInput (v : Word) (h : ShaInput off) :
    ∃ u, busAccess (Txn.memWrite off 4 v) s = .next (writeSha u s) ∧ readReg (s.setSha u) off = v := by
  rw [busAccess_memWrite v s h.1]
  obtain ⟨k, hr⟩ | ⟨j, hr⟩ := registerAt_shaInput s.nw h
  · exact ⟨{ s.sha with h := s.sha.h.set k.val v }, by simp only [writeReg, hr],
      by simp [readReg, hr, Vector.get_eq_getElem]⟩
  · exact ⟨{ s.sha with msg := s.sha.msg.set j.val v }, by simp only [writeReg, hr],
      by simp [readReg, hr, Vector.get_eq_getElem]⟩

/-- A stored operand word is what a read of it returns. -/
theorem operandWord_set_self {ws : List Word} {i : Nat} (v : Word) (hi : i < ws.length) :
    operandWord (ws.set i v) i = v := by
  simp [operandWord, hi]

/-- A write to a word of OPA, OPB or MOD is the busy-checked store of the MEXP unit, and what it stores is what a read then
returns. -/
theorem busAccess_write_mexpInput (v : Word) (hp : ParamInv s) (h : MexpInput s.nw off) :
    ∃ u, busAccess (Txn.memWrite off 4 v) s = .next (writeMexp u s) ∧ readReg (s.setMexp u) off = v := by
  obtain ⟨-, hn, hopa, hopb, hmod, -⟩ := hp
  rw [busAccess_memWrite v s h.1]
  obtain ⟨i, hi, hr | hr | hr⟩ := registerAt_mexpInput hn h
  · exact ⟨{ s.mexp with opa := s.mexp.opa.set i v }, by simp only [writeReg, hr],
      by simp [readReg, hr, operandWord_set_self v (hopa ▸ hi)]⟩
  · exact ⟨{ s.mexp with opb := s.mexp.opb.set i v }, by simp only [writeReg, hr],
      by simp [readReg, hr, operandWord_set_self v (hopb ▸ hi)]⟩
  · exact ⟨{ s.mexp with mod := s.mexp.mod.set i v }, by simp only [writeReg, hr],
      by simp [readReg, hr, operandWord_set_self v (hmod ▸ hi)]⟩

theorem writeSha_of_busy (u : ShaUnit) (h : shaBusy s = true) : writeSha u s = raiseBlockError .shaBusy s := by
  simpa [h] using writeSha_eq u s

theorem writeSha_of_idle (u : ShaUnit) (h : shaBusy s = false) : writeSha u s = s.setSha u := by
  simpa [h] using writeSha_eq u s

theorem writeMexp_of_busy (u : MexpUnit) (h : mexpBusy s = true) : writeMexp u s = raiseBlockError .mexpBusy s := by
  simpa [h] using writeMexp_eq u s

theorem writeMexp_of_idle (u : MexpUnit) (h : mexpBusy s = false) : writeMexp u s = s.setMexp u := by
  simpa [h] using writeMexp_eq u s

end Sys2Proof.Machine
end

section
/-! SUPPORT. What the window reads after reset (10_state.md R45). -/

namespace Sys2Proof.Machine

open Sys2Proof.Safety

/-- A word of an operand register file of zeros is 0, also beyond its end. -/
theorem operandWord_replicate_zero (n i : Nat) : operandWord (List.replicate n 0) i = 0 := by
  by_cases h : i < n <;> simp [operandWord, h]

/-- PARAM shows NW, which fits its byte (R7, R27). -/
theorem paramWord_eq {s : State} (h : s.nw ≤ 64) : paramWord s = BitVec.ofNat 32 s.nw := by
  apply BitVec.eq_of_toNat_eq
  simp only [paramWord, BitVec.toNat_setWidth, BitVec.toNat_ofNat]
  omega

/-- STATUS is 0 after reset, for every NW (R45). -/
theorem statusWord_resetOf (nw : Nat) : statusWord (State.resetOf nw) = 0 := by
  have hnw : statusWord (State.resetOf nw) = statusWord (State.resetOf 0) := rfl
  rw [hnw]
  decide

/-- After reset every register but ID, PARAM and H0..H4 reads 0 (R45). -/
theorem readReg_resetOf_eq_zero {nw : Nat} {off : Offset} (hid : registerAt nw off ≠ .id)
    (hparam : registerAt nw off ≠ .param) (hh : ∀ k, registerAt nw off ≠ .h k) : readReg (State.resetOf nw) off = 0 := by
  have hnw : (State.resetOf nw).nw = nw := rfl
  rw [readReg, hnw]
  cases hr : registerAt nw off with
  | id => exact absurd hr hid
  | param => exact absurd hr hparam
  | h k => exact absurd hr (hh k)
  | msg j => simp [State.resetOf, ShaUnit.reset, Vector.get_eq_getElem]
  | opa i | opb i | mod i | result i => exact operandWord_replicate_zero nw i
  | status => exact statusWord_resetOf nw
  | cmd | irqEn | reserved => rfl

/-- Every aligned offset apart from those of ID, PARAM and H0..H4 reads 0 after reset (R45). -/
theorem readReg_resetOf_of_ne {nw : Nat} {off : Offset} (ha : Aligned off) (hid : off ≠ offId) (hparam : off ≠ offParam)
    (hh : ∀ k : Fin 5, off ≠ offH k.val) : readReg (State.resetOf nw) off = 0 := by
  have hoff := registerAt_offset (nw := nw) ha
  refine readReg_resetOf_eq_zero (fun hr => ?_) (fun hr => ?_) (fun k hr => ?_) <;> rw [hr] at hoff
  · exact hid hoff
  · exact hparam hoff
  · exact hh k hoff

end Sys2Proof.Machine
end

section
/-! The statements about the values of the state, STATUS, IRQ_EN and the register window (10_state.md). -/

namespace Sys2Proof.Machine

open Sys2Proof.Safety

/-- Settles O35: a case split over the named words of the table; every other word is `readReg_resetOf_of_ne`. -/
theorem resetValues : Obligations.ResetValues := by
  intro nw _ hn
  refine ⟨⟨rfl, rfl, rfl, rfl, rfl, rfl, rfl, rfl, rfl, rfl⟩, fun off ha => ?_, fun s hs => ?_⟩
  · split_ifs with h0 h1 h2 h3 h4 h5 h6
    · subst h0; exact readReg_offId _
    · subst h1; exact (readReg_offParam _).trans (paramWord_eq hn)
    · subst h2; rfl
    · subst h3; rfl
    · subst h4; rfl
    · subst h5; rfl
    · subst h6; rfl
    · refine readReg_resetOf_of_ne ha h0 h1 fun k => ?_
      fin_cases k
      exacts [h2, h3, h4, h5, h6]
  · exact ⟨resetAll s, rfl, rfl, hs, rfl, rfl, congrArg MexpUnit.reset hs⟩

/-- Settles O41, field by field from `statusWord_getLsbD`. -/
theorem statusShowsTheState : Obligations.StatusShowsTheState := by
  intro s
  simp only [readReg_offStatus]
  exact ⟨statusWord_getLsbD s 0, statusWord_getLsbD s 1, statusWord_getLsbD s 2, statusWord_getLsbD s 3,
    statusWord_getLsbD s 4, statusWord_getLsbD s 5, statusWord_reserved_field s (by omega), statusWord_errCode s,
    statusWord_shaRound s, statusWord_reserved_field s (by omega), rfl⟩

/-- Settles O48: the map names no register at a reserved offset, and each write to STATUS and IRQ_EN looks only at bits the
mask keeps. -/
theorem reservedSpaceReadsZeroAndIgnoresWrites : Obligations.ReservedSpaceReadsZeroAndIgnoresWrites := by
  refine ⟨fun s off hp hoff => ?_, fun s => ⟨statusWord_and_reserved s, setWidth_and_upper_eq_zero s.biu.irqEn,
    setWidth_and_upper_eq_zero (BitVec.ofNat 8 s.nw)⟩, fun s v v' h => ?_, fun s v v' h => ?_,
    busAccess_write_offParam, fun s v hv => (busAccess_write_offCmd s v).trans (command_of_rsvd_ne_zero s hv)⟩
  · obtain ⟨-, hn, -⟩ := hp
    have hr := registerAt_reserved hn hoff
    exact ⟨readReg_reserved s hr, fun v => (busAccess_memWrite v s hoff.1).trans (writeReg_reserved s v hr)⟩
  · have hs := statusW1c_congr s (getLsbD_eq_of_and_eq h (by decide)) (getLsbD_eq_of_and_eq h (by decide))
      (getLsbD_eq_of_and_eq h (by decide))
    exact (busAccess_write_offStatus s v).trans (hs ▸ (busAccess_write_offStatus s v').symm)
  · have hmask : ∀ i < 3, (0x00000007#32).getLsbD i = true := by decide
    have hs := writeIrqEn_congr s fun i hi => getLsbD_eq_of_and_eq h (hmask i hi)
    exact (busAccess_write_offIrqEn s v).trans (hs ▸ (busAccess_write_offIrqEn s v').symm)

/-- Settles O50: every input register is written through `writeSha` or `writeMexp`, which ask for the owning unit only. -/
theorem inputWritesOfABusyUnitAreRejected : Obligations.InputWritesOfABusyUnitAreRejected := by
  refine ⟨fun s off v hoff hb => ?_, fun s off v hp hoff hb => ?_, fun s off v _ hoff hi => ?_,
    fun s off v hp hoff hi => ?_⟩
  · obtain ⟨u, hw, -⟩ := busAccess_write_shaInput (s := s) v hoff
    rw [hw, writeSha_of_busy u hb]
  · obtain ⟨u, hw, -⟩ := busAccess_write_mexpInput v hp hoff
    rw [hw, writeMexp_of_busy u hb]
  · obtain ⟨u, hw, hr⟩ := busAccess_write_shaInput (s := s) v hoff
    exact ⟨s.setSha u, by rw [hw, writeSha_of_idle u hi], hr⟩
  · obtain ⟨u, hw, hr⟩ := busAccess_write_mexpInput v hp hoff
    exact ⟨s.setMexp u, by rw [hw, writeMexp_of_idle u hi], hr⟩

/-- Settles O43, from the register map at the offset of IRQ_EN and the definition of the interrupt output. -/
theorem irqEnHoldsThreeBits : Obligations.IrqEnHoldsThreeBits := by
  refine ⟨busAccess_write_offIrqEn, readReg_offIrqEn, fun s => ?_, fun _ => rfl⟩
  simp only [irq, Bool.or_eq_true, Bool.and_eq_true, or_assoc]

end Sys2Proof.Machine
end

section
/-! SUPPORT. A value and its words (10_state.md R33, 20_memory.md R62): the two conversions, each the other's inverse. -/

namespace Sys2Proof.Machine

theorem two_pow_words_succ (n : Nat) : 2 ^ (32 * (n + 1)) = 2 ^ 32 * 2 ^ (32 * n) := by rw [Nat.mul_succ, pow_add, mul_comm]

@[simp] theorem natToWords_length (n v : Nat) : (natToWords n v).length = n := by
  induction n generalizing v with
  | zero => rfl
  | succ n ih => simp [natToWords, ih]

/-- Word `i` of a value is its bits [32i+31 : 32i] (R33). -/
theorem natToWords_getD_toNat {n i : Nat} (v : Nat) (hi : i < n) :
    ((natToWords n v).getD i 0).toNat = v / 2 ^ (32 * i) % 2 ^ 32 := by
  induction n generalizing v i with
  | zero => omega
  | succ n ih =>
    cases i with
    | zero => simp [natToWords]
    | succ i =>
      rw [natToWords, List.getD_cons_succ, ih _ (by omega), Nat.div_div_eq_div_mul, two_pow_words_succ]

/-- The words of a value keep it modulo 2^(32n). -/
theorem wordsToNat_natToWords (n v : Nat) : wordsToNat (natToWords n v) = v % 2 ^ (32 * n) := by
  induction n generalizing v with
  | zero => simp [natToWords, wordsToNat, Nat.mod_one]
  | succ n ih =>
    rw [natToWords, wordsToNat, ih, two_pow_words_succ, Nat.mod_mul, BitVec.toNat_ofNat]

theorem wordsToNat_lt (ws : List Word) : wordsToNat ws < 2 ^ (32 * ws.length) := by
  induction ws with
  | nil => simp [wordsToNat]
  | cons w ws ih =>
    have hw := w.isLt
    rw [wordsToNat, List.length_cons, two_pow_words_succ]
    omega

/-- Any words are the words of their value. -/
theorem natToWords_wordsToNat (ws : List Word) : natToWords ws.length (wordsToNat ws) = ws := by
  induction ws with
  | nil => rfl
  | cons w ws ih =>
    have hw := w.isLt
    have hdiv : (w.toNat + 2 ^ 32 * wordsToNat ws) / 2 ^ 32 = wordsToNat ws := by omega
    have hword : BitVec.ofNat 32 (w.toNat + 2 ^ 32 * wordsToNat ws) = w := by
      apply BitVec.eq_of_toNat_eq
      rw [BitVec.toNat_ofNat, Nat.add_mul_mod_self_left, Nat.mod_eq_of_lt hw]
    rw [wordsToNat, List.length_cons, natToWords, hdiv, hword, ih]

/-- Word `i` of an operand register file holds bits [32i+31 : 32i] of the operand's value (R33). -/
theorem operandWord_toNat {ws : List Word} {i : Nat} (hi : i < ws.length) :
    (operandWord ws i).toNat = wordsToNat ws / 2 ^ (32 * i) % 2 ^ 32 := by
  rw [← natToWords_getD_toNat _ hi, natToWords_wordsToNat, operandWord]

end Sys2Proof.Machine
end

section
/-! SUPPORT. The words of the operand register files in the window (10_state.md R25, R36): what a read of each returns. -/

namespace Sys2Proof.Machine

variable {s : State} {i : Nat}

theorem readReg_offOpa (hn : s.nw ≤ 64) (hi : i < s.nw) : readReg s (offOpa i) = operandWord s.mexp.opa i := by
  have hoff : (offOpa i).toNat = 0x100 + 4 * i := by simp only [offOpa, BitVec.toNat_ofNat]; omega
  simp only [readReg, registerAt_opa s.nw _ i hi hoff]

theorem readReg_offOpb (hn : s.nw ≤ 64) (hi : i < s.nw) : readReg s (offOpb i) = operandWord s.mexp.opb i := by
  have hoff : (offOpb i).toNat = 0x200 + 4 * i := by simp only [offOpb, BitVec.toNat_ofNat]; omega
  simp only [readReg, registerAt_opb s.nw _ i hn hi hoff]

theorem readReg_offMod (hn : s.nw ≤ 64) (hi : i < s.nw) : readReg s (offMod i) = operandWord s.mexp.mod i := by
  have hoff : (offMod i).toNat = 0x300 + 4 * i := by simp only [offMod, BitVec.toNat_ofNat]; omega
  simp only [readReg, registerAt_mod s.nw _ i hn hi hoff]

theorem readReg_offResult (hn : s.nw ≤ 64) (hi : i < s.nw) : readReg s (offResult i) = operandWord s.mexp.result i := by
  have hoff : (offResult i).toNat = 0x400 + 4 * i := by simp only [offResult, BitVec.toNat_ofNat]; omega
  simp only [readReg, registerAt_result s.nw _ i hn hi hoff]

end Sys2Proof.Machine
end

section
/-! SUPPORT. The digest, its bytes and its hexadecimal digits (20_memory.md R61, 42_sha1.md R154), and the length field of the
padding (R150). -/

namespace Sys2Proof.Machine

/-- Where every element gives `c` elements, element `c * k + q` of a `flatMap` is element `q` of what element `k` gives. -/
theorem getElem?_flatMap_of_length {α β : Type} {f : α → List β} {c q : Nat} (hf : ∀ a, (f a).length = c) (hq : q < c)
    (l : List α) (k : Nat) : (l.flatMap f)[c * k + q]? = l[k]?.bind fun a => (f a)[q]? := by
  induction l generalizing k with
  | nil => simp
  | cons a l ih =>
    rw [List.flatMap_cons]
    cases k with
    | zero => simp [List.getElem?_append_left (hf a ▸ hq)]
    | succ k =>
      have hpos : c * (k + 1) + q = c + (c * k + q) := by ring
      have hsub : c + (c * k + q) - (f a).length = c * k + q := by rw [hf a]; omega
      rw [hpos, List.getElem?_append_right (by rw [hf a]; omega), hsub, ih k, List.getElem?_cons_succ]

/-- A field of a field is a field of the whole. -/
theorem extractLsb'_extractLsb' {w a b m n : Nat} (x : BitVec w) (h : b + n ≤ m) :
    (x.extractLsb' a m).extractLsb' b n = x.extractLsb' (a + b) n := by
  refine BitVec.eq_of_getLsbD_eq fun i hi => ?_
  have hm : b + i < m := by omega
  simp [hi, hm, Nat.add_assoc]

theorem toNat_div_16_eq_highNibble (b : Byte) : b.toNat / 16 = (b.extractLsb' 4 4).toNat := by
  have hb := b.isLt
  rw [BitVec.extractLsb'_toNat, Nat.shiftRight_eq_div_pow]
  omega

theorem toNat_mod_16_eq_lowNibble (b : Byte) : b.toNat % 16 = (b.extractLsb' 0 4).toNat := by
  simp [BitVec.extractLsb'_toNat]

/-- The digit of 4 bits does not depend on the default of the list of digits (R154). -/
theorem hexDigits_getD (x : BitVec 4) (c : Char) : hexDigits.getD x.toNat c = hexDigit x.toNat := by
  have hx : x.toNat < hexDigits.length := x.isLt
  rw [hexDigit, List.getD_eq_getElem _ _ hx, List.getD_eq_getElem _ _ hx]

/-- Digest byte 4k + q is bits [31-8q : 24-8q] of Hk (R61). -/
theorem digestBytes_getElem? (h : Vector Word 5) (k : Fin 5) {q : Nat} (hq : q < 4) :
    (digestBytes h)[4 * k.val + q]? = some (h[k.val].extractLsb' (24 - 8 * q) 8) := by
  have hk : h.toList[k.val]? = some h[k.val] := by simp
  rw [digestBytes, getElem?_flatMap_of_length (c := 4) (fun _ => rfl) hq, hk, Option.bind_some]
  interval_cases q <;> rfl

@[simp] theorem digestBytes_length (h : Vector Word 5) : (digestBytes h).length = 20 := by
  simp [digestBytes, List.length_flatMap]

/-- Hk is bits [159-32k : 128-32k] of the digest (R61). -/
theorem digest_word (h : Vector Word 5) (k : Fin 5) : (digest h).extractLsb' (32 * (4 - k.val)) 32 = h[k.val] := by
  have skip {v : Nat} {x : BitVec v} {y : Word} (n : Nat) :
      (x ++ y).extractLsb' (32 * (n + 1)) 32 = x.extractLsb' (32 * n) 32 := BitVec.extractLsb'_append_eq_of_le (by omega)
  fin_cases k
  · exact (skip 3).trans ((skip 2).trans ((skip 1).trans BitVec.extractLsb'_append_eq_left))
  · exact (skip 2).trans ((skip 1).trans ((skip 0).trans BitVec.extractLsb'_append_eq_right))
  · exact (skip 1).trans ((skip 0).trans BitVec.extractLsb'_append_eq_right)
  · exact (skip 0).trans BitVec.extractLsb'_append_eq_right
  · exact BitVec.extractLsb'_append_eq_right

/-- Digest byte `i` is bits [8(19-i)+7 : 8(19-i)] of the digest (R61). -/
theorem digestBytes_getElem?_eq_digest (h : Vector Word 5) {i : Nat} (hi : i < 20) :
    (digestBytes h)[i]? = some ((digest h).extractLsb' (8 * (19 - i)) 8) := by
  obtain ⟨k, q, hk, hq, rfl⟩ : ∃ k q, k < 5 ∧ q < 4 ∧ i = 4 * k + q := ⟨i / 4, i % 4, by omega, by omega, by omega⟩
  have hpos : 32 * (4 - k) + (24 - 8 * q) = 8 * (19 - (4 * k + q)) := by omega
  rw [digestBytes_getElem? h ⟨k, hk⟩ hq, ← digest_word h ⟨k, hk⟩, extractLsb'_extractLsb' _ (by omega), hpos]

/-- Digit `i` is that of bits [4(39-i)+3 : 4(39-i)] of the digest: digit 2j is the high nibble of byte `j`, digit 2j + 1 the low
one (R154). -/
theorem hexDigest_getElem? (h : Vector Word 5) {i : Nat} (hi : i < 40) :
    (hexDigest h)[i]? = some (hexDigit ((digest h).extractLsb' (4 * (39 - i)) 4).toNat) := by
  obtain ⟨j, r, hj, hr, rfl⟩ : ∃ j r, j < 20 ∧ r < 2 ∧ i = 2 * j + r := ⟨i / 2, i % 2, by omega, by omega, by omega⟩
  rw [hexDigest, getElem?_flatMap_of_length (c := 2) (fun _ => rfl) hr, digestBytes_getElem?_eq_digest h hj, Option.bind_some]
  obtain rfl | rfl : r = 0 ∨ r = 1 := by omega
  · have hpos : 8 * (19 - j) + 4 = 4 * (39 - (2 * j + 0)) := by omega
    simp only [List.getElem?_cons_zero, toNat_div_16_eq_highNibble, extractLsb'_extractLsb' _ (show 4 + 4 ≤ 8 by decide), hpos]
  · have hpos : 8 * (19 - j) + 0 = 4 * (39 - (2 * j + 1)) := by omega
    simp only [List.getElem?_cons_succ, List.getElem?_cons_zero, toNat_mod_16_eq_lowNibble,
      extractLsb'_extractLsb' _ (show 0 + 4 ≤ 8 by decide), hpos]

@[simp] theorem hexDigest_length (h : Vector Word 5) : (hexDigest h).length = 40 := by
  simp [hexDigest, List.length_flatMap]

/-- Byte `i` of a big-endian 64-bit number (R150). -/
theorem be64_getD (x : Nat) {i : Nat} (hi : i < 8) : (be64 x).getD i 0 = BitVec.ofNat 8 (x / 2 ^ (8 * (7 - i))) := by
  simp [be64, hi]

/-- The last 8 bytes of a padded message are its bit length (R150). -/
theorem pad_getD_lengthField (m : List Byte) (i : Nat) :
    (pad m).getD (m.length + 1 + padZeros m.length + i) 0 = (be64 (8 * m.length)).getD i 0 := by
  have hlen : (m ++ [(0x80 : Byte)] ++ List.replicate (padZeros m.length) 0x00).length = m.length + 1 + padZeros m.length := by
    simp only [List.length_append, List.length_singleton, List.length_replicate]
  rw [pad, List.getD_append_right _ _ _ _ (by omega), hlen, Nat.add_sub_cancel_left]

end Sys2Proof.Machine
end

section
/-! The statements about the layout of operands and digests (20_memory.md). -/

namespace Sys2Proof.Machine

/-- Settles O52: the conversions are inverse, and each operand word of the window is a word of its register file. -/
theorem operandsAreLittleEndianByWord : Obligations.OperandsAreLittleEndianByWord := by
  refine ⟨fun n v i => natToWords_getD_toNat v, fun n v => ⟨natToWords_length n v, fun hv => ?_⟩,
    fun ws => ⟨wordsToNat_lt ws, natToWords_wordsToNat ws⟩, fun s i hp hi => ?_⟩
  · rw [wordsToNat_natToWords, Nat.mod_eq_of_lt hv]
  · obtain ⟨-, hn, hopa, hopb, hmod, hresult⟩ := hp
    rw [readReg_offOpa hn hi, readReg_offOpb hn hi, readReg_offMod hn hi, readReg_offResult hn hi]
    exact ⟨operandWord_toNat (hopa ▸ hi), operandWord_toNat (hopb ▸ hi), operandWord_toNat (hmod ▸ hi),
      operandWord_toNat (hresult ▸ hi)⟩

/-- Settles O59: bytes and hexadecimal digits are read off the digest at their positions. -/
theorem digestForms : Obligations.DigestForms := by
  refine ⟨fun m i hi => ?_, fun h => ⟨rfl, fun k q hq => ?_, hexDigest_length h, digestBytes_length h, fun i hi => ?_,
    fun i hi => ?_⟩⟩
  · rw [pad_getD_lengthField, be64_getD _ hi]
  · rw [List.getD_eq_getElem?_getD, digestBytes_getElem? h k hq, Option.getD_some]
  · rw [List.getD_eq_getElem?_getD, digestBytes_getElem?_eq_digest h hi, Option.getD_some]
  · rw [List.getD_eq_getElem?_getD, hexDigest_getElem? h hi, Option.getD_some]
    exact (hexDigits_getD _ ' ').symm

end Sys2Proof.Machine
end

section
/-! The statement about illegal command words (30_encoding.md R83). -/

namespace Sys2Proof.Machine

/-- The OP of a command is one of the eight defined values (R82). -/
theorem opcode_toNat_mem (i : Instr) : (opcode i).toNat ∈ [0x00, 0x01, 0x10, 0x11, 0x1F, 0x20, 0x21, 0x2F] := by
  cases i <;> decide

/-- A word with RSVD = 0 whose OP is none of the eight defined values is illegal for its OP (R83). -/
theorem decode_of_op_undefined {w : Word} (hr : w.toNat / 256 = 0)
    (ho : w.toNat % 256 ∉ [0x00, 0x01, 0x10, 0x11, 0x1F, 0x20, 0x21, 0x2F]) : decode w = .illegal .undefinedOp := by
  have hrsvd : ¬ rsvdField w ≠ 0 := not_not.mpr ((rsvdField_eq_zero_iff w).mpr hr)
  have hlookup : opcodeMap.lookup (opField w) = none := by
    refine (lookup_opcodeMap_eq_none _).mpr fun i hi => ho ?_
    rw [← opField_toNat, ← hi]
    exact opcode_toNat_mem i
  rw [decode, if_neg hrsvd, hlookup]

/-- Settles O3: a word with RSVD ≠ 0 is illegal whatever its OP, and one with RSVD = 0 has an OP that no command has. The next
state written out is `raiseBlockError`'s. -/
theorem illegalWordOnlyRaisesIllegalCmd : Obligations.IllegalWordOnlyRaisesIllegalCmd := by
  intro s w hw
  change command w s = .next (raiseBlockError .illegalCmd s)
  by_cases hr : w.toNat / 256 = 0
  · have ho := hw.resolve_left (not_not.mpr hr)
    simp only [command, decode_of_op_undefined hr ho]
  · exact command_of_rsvd_ne_zero s hr

end Sys2Proof.Machine
end

section
/-! The statement about NOP (40_control.md R102). -/

namespace Sys2Proof.Machine

/-- NOP looks at no field of the state, so the phase of neither unit matters (R102). -/
@[simp] theorem exec_nop (s : State) : exec .nop s = .next s := rfl

/-- A word with any of RSVD set is illegal for its RSVD, whatever its OP (R83). -/
theorem decode_of_rsvd_ne_zero {w : Word} (hr : w.toNat / 256 ≠ 0) : decode w = .illegal .rsvdNotZero :=
  if_pos (mt (rsvdField_eq_zero_iff w).mp hr)

/-- Settles O6: NOP answers the state it is given, and RSVD alone makes a word illegal, so OP = 0x00 is not needed. -/
theorem nopChangesNothing : Obligations.NopChangesNothing :=
  ⟨exec_nop, by decide, fun _ _ hr => ⟨.rsvdNotZero, decode_of_rsvd_ne_zero hr⟩⟩

end Sys2Proof.Machine
end

section
/-! SUPPORT. The command word of a decoded command (30_encoding.md R82). -/

namespace Sys2Proof

/-- Each command has one command word (R82). -/
theorem eq_encode_of_decode {w : Word} {i : Instr} (h : decode w = .command i) : w = encode i := by
  unfold decode at h
  split at h
  · cases h
  · next hr =>
    split at h
    · next j hj =>
      cases h
      have hop : opField w = opcode i := ((lookup_opcodeMap_iff _ i).mp hj).symm
      have hrsvd : w.toNat / 256 = 0 := (rsvdField_eq_zero_iff w).mp (not_not.mp hr)
      apply BitVec.eq_of_toNat_eq
      rw [encode_toNat, ← hop, opField_toNat]
      omega
    · cases h

end Sys2Proof
end

section
/-! SUPPORT. MEXP.ABORT by the unit's phase (41_modexp.md R118). -/

namespace Sys2Proof.Machine

variable {s : State}

theorem mexpAbort_of_busy (hb : s.mexp.phase ≠ .idle) :
    mexpAbort s = s.setMexp { s.mexp with phase := .idle, m := 1, b := 0, e := 0, r := 0 } := by
  unfold mexpAbort
  split
  · next hi => exact absurd hi hb
  · rfl
  · rfl

theorem mexpAbort_of_idle (hi : s.mexp.phase = .idle) : mexpAbort s = s := by
  simp only [mexpAbort, hi]

theorem exec_mexpAbort_of_busy (hb : s.mexp.phase ≠ .idle) :
    exec .mexpAbort s = .next (s.setMexp { s.mexp with phase := .idle, m := 1, b := 0, e := 0, r := 0 }) :=
  congrArg Host.Outcome.next (mexpAbort_of_busy hb)

theorem exec_mexpAbort_of_idle (hi : s.mexp.phase = .idle) : exec .mexpAbort s = .next s :=
  congrArg Host.Outcome.next (mexpAbort_of_idle hi)

@[simp] theorem mexpAbort_result (s : State) : (mexpAbort s).mexp.result = s.mexp.result := by
  by_cases hi : s.mexp.phase = .idle
  · rw [mexpAbort_of_idle hi]
  · rw [mexpAbort_of_busy hi, State.setMexp_mexp]

end Sys2Proof.Machine
end

section
/-! SUPPORT. What leaves RESULT (41_modexp.md R115): every command but SRST, every other register write, and every unit step but
the completion. -/

namespace Sys2Proof.Machine

variable {s t : State}

/-- A MEXP command leaves RESULT, rejected or accepted, where its acceptance does. -/
theorem mexpAcceptOr_result {accept : State → State} (h : (accept s).mexp.result = s.mexp.result) :
    (mexpAcceptOr accept s).mexp.result = s.mexp.result := by
  unfold mexpAcceptOr
  split_ifs
  · rw [raiseBlockError_mexp]
  · rw [raiseBlockError_mexp]
  · exact h

@[simp] theorem sha1Abort_mexp (s : State) : (sha1Abort s).mexp = s.mexp := by
  unfold sha1Abort
  split <;> rfl

@[simp] theorem sha1Step_mexp (s : State) : (sha1Step s).mexp = s.mexp := by
  unfold sha1Step
  split
  · rfl
  · split_ifs
    · rfl
    · rw [sha1Complete_mexp]

/-- Every command but SRST leaves RESULT (R115). -/
theorem exec_result {i : Instr} (hi : i ≠ .srst) (h : exec i s = .next t) : t.mexp.result = s.mexp.result := by
  have shaCmd {u : State} (hu : u.mexp = s.mexp)
      (h : (if shaBusy s then .next (raiseBlockError .shaBusy s) else .next u : Outcome) = .next t) :
      t.mexp.result = s.mexp.result := by
    split_ifs at h <;> cases h
    · rw [raiseBlockError_mexp]
    · rw [hu]
  cases i with
  | nop => cases h; rfl
  | srst => exact absurd rfl hi
  | sha1Init => exact shaCmd (sha1Init_mexp s) h
  | sha1Block => exact shaCmd (sha1Accept_mexp s) h
  | sha1Abort => cases h; rw [sha1Abort_mexp]
  | mexpExp => cases h; exact mexpAcceptOr_result rfl
  | mexpMul => cases h; exact mexpAcceptOr_result rfl
  | mexpAbort => cases h; exact mexpAbort_result s

/-- Every command word but that of SRST leaves RESULT, an illegal one too (R83, R115). -/
theorem command_result {v : Word} (hv : v ≠ encode .srst) (h : command v s = .next t) :
    t.mexp.result = s.mexp.result := by
  unfold command at h
  split at h
  · cases h; rw [raiseBlockError_mexp]
  · next i hd =>
    refine exec_result (fun hi => hv ?_) h
    rw [← hi, eq_encode_of_decode hd]

@[simp] theorem writeSha_mexp (u : ShaUnit) (s : State) : (writeSha u s).mexp = s.mexp := by
  obtain ⟨-, h⟩ | ⟨-, h⟩ := writeSha_eq u s
  · rw [h, raiseBlockError_mexp]
  · rw [h, State.setSha_mexp]

theorem writeMexp_result {u : MexpUnit} (hu : u.result = s.mexp.result) :
    (writeMexp u s).mexp.result = s.mexp.result := by
  obtain ⟨-, h⟩ | ⟨-, h⟩ := writeMexp_eq u s
  · rw [h, raiseBlockError_mexp]
  · rw [h, State.setMexp_mexp, hu]

/-- A register write leaves RESULT unless it submits SRST: RESULT itself is read-only (R33, R115). -/
theorem writeReg_result {off : Offset} {v : Word} (ha : off.toNat % 4 = 0) (h : writeReg off v s = .next t) :
    t.mexp.result = s.mexp.result ∨ (off = offCmd ∧ v = encode .srst) := by
  obtain rfl | ⟨hoff, hc⟩ | ⟨-, rfl⟩ | ⟨-, rfl⟩ | ⟨k, -, rfl⟩ | ⟨j, -, rfl⟩ | ⟨i, rfl | rfl | rfl⟩ := writeReg_cases ha h
  · exact .inl rfl
  · by_cases hv : v = encode .srst
    · exact .inr ⟨hoff, hv⟩
    · exact .inl (command_result hv hc)
  · exact .inl (by rw [statusW1c_mexp])
  · exact .inl (by rw [writeIrqEn_mexp])
  · exact .inl (by rw [writeSha_mexp])
  · exact .inl (by rw [writeSha_mexp])
  · exact .inl (writeMexp_result rfl)
  · exact .inl (writeMexp_result rfl)
  · exact .inl (writeMexp_result rfl)

@[simp] theorem mexpBusy_mexpComplete (s : State) : mexpBusy (mexpComplete s) = false := mexpBusy_eq_false.mpr rfl

/-- A MEXP unit step leaves RESULT unless it is the completion of a busy unit (R114, R115). -/
theorem mexpStep_result (s : State) :
    (mexpStep s).mexp.result = s.mexp.result ∨ (mexpBusy s = true ∧ mexpBusy (mexpStep s) = false) := by
  by_cases hi : s.mexp.phase = .idle
  · rw [mexpStep_idle hi]
    exact .inl rfl
  · by_cases hd : s.mexp.phase = .exp → s.mexp.e = 0
    · rw [mexpStep_complete hi hd]
      exact .inr ⟨mexpBusy_eq_true.mpr hi, mexpBusy_mexpComplete s⟩
    · obtain ⟨hp, he⟩ := Classical.not_imp.mp hd
      rw [mexpStep_bit hp he]
      exact .inl rfl

end Sys2Proof.Machine
end

section
/-! The statements about the MEXP unit's RESULT and MEXP.ABORT (41_modexp.md R115, R118). -/

namespace Sys2Proof.Machine

open Sys2Proof.Safety

/-- Settles O24: a case split over what a step of an agent can do to the block; the next state of the completion is its
definition. -/
theorem resultIsWrittenOnlyByCompletionAndReset : Obligations.ResultIsWrittenOnlyByCompletionAndReset := by
  refine ⟨fun _ => rfl, fun a s t h hne => ?_⟩
  obtain ⟨-, -, -, hm⟩ | ⟨-, rfl⟩ | ⟨ha, rfl⟩ | ⟨ha, -⟩ | ⟨off, v, u, hw, hoff, hu, -, -, -, hm⟩ := agentStep_cases h
  · exact absurd (congrArg MexpUnit.result hm.symm) hne
  · exact absurd (congrArg MexpUnit.result (sha1Step_mexp s)) hne
  · exact .inl ⟨ha, (mexpStep_result s).resolve_left hne⟩
  · exact .inr (.inl ha)
  · rw [← hm] at hne
    obtain ⟨rfl, rfl⟩ := (writeReg_result hoff hu).resolve_left hne
    exact .inr (.inr hw)

/-- Settles O14: MEXP.ABORT by the unit's phase; the DONE bit of a busy unit is clear before the abort, which leaves the BIU. -/
theorem mexpAbortDiscardsTheRunningCommand : Obligations.MexpAbortDiscardsTheRunningCommand := by
  refine ⟨fun _ => exec_mexpAbort_of_busy, fun _ => exec_mexpAbort_of_idle, fun s hb hdone => ?_, by decide⟩
  obtain ⟨-, hmexp⟩ := hdone
  exact ⟨_, exec_mexpAbort_of_busy hb, mexpBusy_eq_false.mpr rfl, hmexp (mexpBusy_eq_true.mpr hb)⟩

end Sys2Proof.Machine
end

section
/-! SUPPORT. The words of the message schedule (42_sha1.md R133). -/

namespace Sys2Proof.Machine

/-- The first 16 words of the schedule are those of the block. -/
theorem scheduleWord_of_lt (m : Vector Word 16) {j : Nat} (hj : j < 16) : scheduleWord m j = m[j] := by
  rw [scheduleWord_eq m 0 j (by decide) hj]
  simp [schedulePart, hj]

/-- Word 16 + n is the rotated exclusive-or of the words 3, 8, 14 and 16 before it: the four stand in the part of the schedule
that word 16 + n is appended to. -/
theorem scheduleWord_add_sixteen (m : Vector Word 16) {n : Nat} (hn : n < 64) :
    scheduleWord m (n + 16) = rotl32 (scheduleWord m (n + 13) ^^^ scheduleWord m (n + 8) ^^^ scheduleWord m (n + 2) ^^^
      scheduleWord m n) 1 := by
  have earlier {j : Nat} (hj : j < n + 16) : scheduleWord m j = (schedulePart m n).getD j 0 :=
    scheduleWord_eq m n j (by omega) hj
  rw [earlier (j := n + 13) (by omega), earlier (j := n + 8) (by omega), earlier (j := n + 2) (by omega),
    earlier (j := n) (by omega), scheduleWord_eq m (n + 1) (n + 16) hn (by omega), schedulePart,
    List.getD_append_right _ _ _ _ (schedulePart_length m n).le, schedulePart_length, Nat.sub_self, List.getD_cons_zero]

/-- The recurrence of R133, by the word's own number. -/
theorem scheduleWord_of_le (m : Vector Word 16) {j : Nat} (h16 : 16 ≤ j) (h80 : j < 80) :
    scheduleWord m j = rotl32 (scheduleWord m (j - 3) ^^^ scheduleWord m (j - 8) ^^^ scheduleWord m (j - 14) ^^^
      scheduleWord m (j - 16)) 1 := by
  obtain ⟨n, rfl⟩ := Nat.exists_eq_add_of_le' h16
  exact scheduleWord_add_sixteen m (by omega)

end Sys2Proof.Machine
end

section
/-! SUPPORT. The circular window of the running SHA1 unit (42_sha1.md R141). -/

namespace Sys2Proof.Machine

open Sys2Proof.Safety

/-- A word of the window, read off its list. -/
theorem window_toList_getD (w : Vector Word 16) (t : Nat) : w.toList.getD (t % 16) 0 = w[t % 16] := by
  simp [Nat.mod_lt t (show 0 < 16 by decide)]

/-- Below round 16 the window still holds the block, and the word is one of it. -/
theorem windowWord_of_lt (w : Vector Word 16) {t : Nat} (ht : t < 16) : windowWord w t = w[t % 16] := if_pos ht

/-- From round 16 on the word is made of four words of the window. -/
theorem windowWord_of_le (w : Vector Word 16) {t : Nat} (ht : 16 ≤ t) :
    windowWord w t = rotl32 (w[(t - 3) % 16] ^^^ w[(t - 8) % 16] ^^^ w[(t - 14) % 16] ^^^ w[t % 16]) 1 :=
  if_neg (by omega)

/-- After round `t` the window holds the word of that round at t mod 16. -/
theorem windowNext_getElem (w : Vector Word 16) (t : Nat) : (windowNext w t)[t % 16] = windowWord w t := by
  by_cases ht : t < 16
  · simp only [windowNext, if_pos ht, windowWord_of_lt w ht]
  · simp only [windowNext, if_neg ht, Vector.getElem_set_self]

/-- The window of a unit on its way gives the words of the schedule: the four words that round `t` reads are those 3, 8, 14 and 16
before it. -/
theorem windowWord_eq_scheduleWord {m w : Vector Word 16} {t : Nat} (hw : WindowHolds m w t) (ht : t < 80) :
    windowWord w t = scheduleWord m t := by
  by_cases h16 : t < 16
  · rw [windowWord_of_lt w h16, hw t (by omega) (by omega)]
  · have hmod : (t - 16) % 16 = t % 16 := by omega
    have hlast := hw (t - 16) (by omega) (by omega)
    simp only [hmod] at hlast
    rw [windowWord_of_le w (by omega), scheduleWord_of_le m (by omega) ht, hw (t - 3) (by omega) (by omega),
      hw (t - 8) (by omega) (by omega), hw (t - 14) (by omega) (by omega), hlast]

end Sys2Proof.Machine
end

section
/-! SUPPORT. The padding of a message and its blocks (42_sha1.md R150, R151). -/

namespace Sys2Proof.Machine

theorem padZeros_lt (len : Nat) : padZeros len < 64 := by
  unfold padZeros
  omega

/-- The zero bytes fill up to 56 modulo 64 (R150). -/
theorem padZeros_mod (len : Nat) : (len + 1 + padZeros len) % 64 = 56 := by
  unfold padZeros
  omega

@[simp] theorem be64_length (x : Nat) : (be64 x).length = 8 := by simp [be64]

theorem be64_getElem? (x : Nat) {i : Nat} (hi : i < 8) : (be64 x)[i]? = some (BitVec.ofNat 8 (x / 2 ^ (8 * (7 - i)))) := by
  simp [be64, hi]

/-- The first `k` bytes of a big-endian 64-bit number are its quotient by 2^(8(8-k)): each byte read appends 8 bits. -/
theorem be64_take_foldl {x k : Nat} (hx : x < 2 ^ 64) (hk : k ≤ 8) :
    ((be64 x).take k).foldl (fun acc b => acc * 256 + b.toNat) 0 = x / 2 ^ (8 * (8 - k)) := by
  induction k with
  | zero => exact (Nat.div_eq_of_lt hx).symm
  | succ k ih =>
    have hpow : 2 ^ (8 * (8 - k)) = 2 ^ (8 * (7 - k)) * 2 ^ 8 := by
      rw [← pow_add]
      congr 1
      omega
    have hlast : 8 - (k + 1) = 7 - k := by omega
    rw [List.take_add_one, be64_getElem? x hk, Option.toList_some, List.foldl_append, ih (by omega), List.foldl_cons,
      List.foldl_nil, BitVec.toNat_ofNat, hpow, hlast, ← Nat.div_div_eq_div_mul]
    exact Nat.div_add_mod' _ _

/-- The bytes of be64(x) are `x`, most significant first, where `x` fits in 64 bits (R150). -/
theorem be64_foldl {x : Nat} (hx : x < 2 ^ 64) : (be64 x).foldl (fun acc b => acc * 256 + b.toNat) 0 = x := by
  have h := be64_take_foldl hx le_rfl
  rwa [List.take_of_length_le (be64_length x).le, Nat.sub_self, Nat.mul_zero, pow_zero, Nat.div_one] at h

/-- The padded message fills its blocks exactly (R150, R151). -/
theorem pad_length (m : List Byte) : (pad m).length = 64 * blockCount m.length := by
  have hlt := padZeros_lt m.length
  have hmod := padZeros_mod m.length
  simp only [pad, List.length_append, List.length_singleton, List.length_replicate, be64_length, blockCount]
  omega

@[simp] theorem messageBlocks_length (m : List Byte) : (messageBlocks m).length = blockCount m.length := by
  simp [messageBlocks]

/-- Block `k` of a message is cut out of its padding (R151). -/
theorem messageBlocks_getElem? {m : List Byte} {k : Nat} (hk : k < blockCount m.length) :
    (messageBlocks m)[k]? = some (messageBlock (pad m) k) := by
  simp [messageBlocks, hk]

/-- Word `j` of block `k` is packed of the bytes from 64k + 4j on (R60, R151). -/
theorem messageBlock_getElem (bytes : List Byte) (k : Nat) (j : Fin 16) :
    (messageBlock bytes k)[j.val] =
      bytes.getD (64 * k + 4 * j.val) 0 ++ bytes.getD (64 * k + 4 * j.val + 1) 0 ++
        bytes.getD (64 * k + 4 * j.val + 2) 0 ++ bytes.getD (64 * k + 4 * j.val + 3) 0 := by
  have hpos : 4 * (16 * k + j.val) = 64 * k + 4 * j.val := by omega
  rw [messageBlock, Vector.getElem_ofFn, packWord, hpos]

end Sys2Proof.Machine
end

section
/-! SUPPORT. The commands of the SHA1 unit by its phase (42_sha1.md R140, R144, R146), and writes to H0..H4 of the idle unit
(10_state.md R35). -/

namespace Sys2Proof.Machine

variable {s : State}

theorem exec_sha1Init_of_idle (hi : s.sha.phase = .idle) : exec .sha1Init s = .next (sha1Init s) := by
  simp only [exec, execSha1Init, shaBusy_eq_false.mpr hi, Bool.false_eq_true, if_false]

theorem exec_sha1Init_of_busy (hr : s.sha.phase = .run) : exec .sha1Init s = .next (raiseBlockError .shaBusy s) :=
  if_pos (shaBusy_eq_true.mpr hr)

theorem exec_sha1Block_of_idle (hi : s.sha.phase = .idle) : exec .sha1Block s = .next (sha1Accept s) := by
  simp only [exec, execSha1Block, shaBusy_eq_false.mpr hi, Bool.false_eq_true, if_false]

theorem exec_sha1Block_of_busy (hr : s.sha.phase = .run) : exec .sha1Block s = .next (raiseBlockError .shaBusy s) :=
  if_pos (shaBusy_eq_true.mpr hr)

theorem exec_sha1Abort_of_idle (hi : s.sha.phase = .idle) : exec .sha1Abort s = .next s := by
  simp only [exec, execSha1Abort, sha1Abort, hi]

theorem exec_sha1Abort_of_busy (hr : s.sha.phase = .run) : exec .sha1Abort s =
    .next (s.setSha { s.sha with phase := .idle, t := 0, work := Work.zero, w := Vector.replicate 16 0 }) := by
  simp only [exec, execSha1Abort, sha1Abort, hr]

/-- A write to Hk of the idle unit stores the word (R35). -/
theorem busAccess_write_offH (k : Fin 5) (v : Word) (hi : s.sha.phase = .idle) :
    busAccess (Txn.memWrite (offH k.val) 4 v) s = .next (s.setSha { s.sha with h := s.sha.h.set k.val v }) := by
  have hoff : (offH k.val).toNat = 0x020 + 4 * k.val := by
    simp only [offH, BitVec.toNat_ofNat]
    omega
  rw [busAccess_memWrite v s (by omega)]
  simp only [writeReg, registerAt_h s.nw _ k hoff, writeSha_of_idle _ (shaBusy_eq_false.mpr hi)]

/-- Five words written one after another are the whole chaining value. -/
theorem set_five_words (h : Vector Word 5) (a b c d e : Word) :
    ((((h.set 0 a).set 1 b).set 2 c).set 3 d).set 4 e = #v[a, b, c, d, e] := by
  refine Vector.ext fun i hi => ?_
  interval_cases i <;> simp

/-- No step of the SHA1 unit writes MSG: a pause, a round and a completion (R32, R140). -/
@[simp] theorem sha1Step_msg (s : State) : (sha1Step s).sha.msg = s.sha.msg := by
  unfold sha1Step
  split
  · rfl
  · split_ifs <;> rfl

end Sys2Proof.Machine
end

section
/-! The statements about the SHA-1 functions, the commands and the steps of the SHA1 unit, and the padding of messages
(42_sha1.md). -/

namespace Sys2Proof.Machine

open Sys2Proof.Safety

/-- Settles O20: the schedule is built word after word, and a word, once built, stays. -/
theorem messageScheduleRecurrence : Obligations.MessageScheduleRecurrence :=
  fun m _ => ⟨scheduleWord_of_lt m, scheduleWord_of_le m⟩

/-- Settles O21: the word of the round is `windowWord`, which the next window holds at u.t mod 16, and which is w[u.t] where the
window holds the last 16 words of the schedule. -/
theorem shaRoundStep : Obligations.ShaRoundStep := by
  refine ⟨fun s hr ht => ⟨windowWord s.sha.w s.sha.t.val, fun h16 => ?_, fun h16 => ?_, ?_⟩,
    fun s t htracks hr ht h => ?_⟩
  · rw [windowWord_of_lt _ h16, ← window_toList_getD, Nat.mod_eq_of_lt h16]
  · simp only [windowWord_of_le _ h16, window_toList_getD]
  · exact congrArg Host.Outcome.next (sha1Step_round hr ht)
  · obtain ⟨-, hwindow⟩ := htracks hr
    have hnext : sha1Step s = t := by cases h; rfl
    rw [← hnext, sha1Step_round hr ht, window_toList_getD]
    exact (windowNext_getElem _ _).trans (windowWord_eq_scheduleWord hwindow ht)

/-- Settles O57: the zero bytes fill up to 56 modulo 64, and the 8 bytes of the length field read back as the bit length. -/
theorem paddingFillsWholeBlocks : Obligations.PaddingFillsWholeBlocks :=
  fun m => ⟨rfl, padZeros_lt _, padZeros_mod _, be64_length _, be64_foldl, pad_length m, messageBlocks_length m⟩

/-- Settles O58: block k is cut at byte 64k of the padded message, and its word j packed at byte 4j of it. -/
theorem blocksAreCutAndPackedBigEndian : Obligations.BlocksAreCutAndPackedBigEndian := by
  refine ⟨fun m k hk => ⟨_, messageBlocks_getElem? hk, messageBlock_getElem (pad m) k⟩,
    fun m => ⟨messageBlocks_length m, pad_length m⟩, fun len => ⟨fun h => ?_, fun h h' => ?_⟩, by decide, by decide⟩
  · unfold blockCount
    omega
  · unfold blockCount
    omega

/-- Settles O9: by the unit's phase; the five writes by hand leave the unit idle and together replace all of H. -/
theorem sha1InitLoadsTheIv : Obligations.Sha1InitLoadsTheIv := by
  refine ⟨fun _ => exec_sha1Init_of_idle, fun _ => exec_sha1Init_of_busy, by decide,
    fun s _ _ => command_of_rsvd_ne_zero s, fun s hi => ?_⟩
  refine ⟨_, _, _, _, _, busAccess_write_offH 0 _ hi, busAccess_write_offH 1 _ hi, busAccess_write_offH 2 _ hi,
    busAccess_write_offH 3 _ hi, busAccess_write_offH 4 _ hi, ?_⟩
  have hiv := set_five_words s.sha.h 0x67452301 0xEFCDAB89 0x98BADCFE 0x10325476 0xC3D2E1F0
  rw [exec_sha1Init_of_idle hi]
  exact congrArg (fun h => Host.Outcome.next (s.setSha { s.sha with h := h })) hiv.symm

/-- Settles O10: by the unit's phase; the next state written out is `sha1Accept`'s. -/
theorem sha1BlockIsAcceptedOrRejected : Obligations.Sha1BlockIsAcceptedOrRejected := by
  refine ⟨fun _ => exec_sha1Block_of_idle, fun _ => exec_sha1Block_of_busy, fun s t h => ?_⟩
  cases h
  exact sha1Step_msg s

/-- Settles O11: by the unit's phase; the DONE bit of a busy unit is clear before the abort, which leaves the BIU. -/
theorem sha1AbortDiscardsTheRunningBlock : Obligations.Sha1AbortDiscardsTheRunningBlock := by
  refine ⟨fun _ => exec_sha1Abort_of_busy, fun _ => exec_sha1Abort_of_idle, fun s hr hdone => ?_, by decide⟩
  obtain ⟨hsha, -⟩ := hdone
  exact ⟨_, exec_sha1Abort_of_busy hr, shaBusy_eq_false.mpr rfl, rfl, hsha (shaBusy_eq_true.mpr hr)⟩

/-- Settles O18: in each range the conditions of the two tables before it fail and its own holds. -/
theorem roundFunctionsAndConstants : Obligations.RoundFunctionsAndConstants := by
  intro t b c d
  unfold roundF roundK
  refine ⟨fun h => ?_, fun h h' => ?_, fun h h' => ?_, fun h _ => ?_⟩
  · simp only [h, if_true, BitVec.ofNat_eq_ofNat, and_self]
  · have h20 : ¬ t < 20 := by omega
    simp only [h20, h', if_false, if_true, BitVec.ofNat_eq_ofNat, and_self]
  · have h20 : ¬ t < 20 := by omega
    have h40 : ¬ t < 40 := by omega
    simp only [h20, h40, h', if_false, if_true, BitVec.ofNat_eq_ofNat, and_self]
  · have h20 : ¬ t < 20 := by omega
    have h40 : ¬ t < 40 := by omega
    have h60 : ¬ t < 60 := by omega
    simp only [h20, h40, h60, if_false, BitVec.ofNat_eq_ofNat, and_self]

/-- Settles O22: past the last round the step is the completion, and the next state written out is `sha1Complete`'s. -/
theorem shaCompletionStep : Obligations.ShaCompletionStep :=
  fun _ hr ht => congrArg Host.Outcome.next (sha1Step_complete hr ht)

end Sys2Proof.Machine
end

section
/-! SUPPORT. What raising a BlockError does to the bus interface (60_exceptions.md R161), and the admitted write as one that
always completes (20_memory.md R64). -/

namespace Sys2Proof.Machine

variable {s : State} {c : ErrCode}

@[simp] theorem raiseBlockError_err : (raiseBlockError c s).biu.err = true := rfl

/-- The first error's code is recorded. -/
theorem raiseBlockError_errCode_of_clear (h : s.biu.err = false) : (raiseBlockError c s).biu.errCode = c := by
  rw [raiseBlockError, State.setBiu_biu, h, if_neg Bool.false_ne_true]

/-- A later error leaves the code of the first. -/
theorem raiseBlockError_errCode_of_set (h : s.biu.err = true) : (raiseBlockError c s).biu.errCode = s.biu.errCode := by
  rw [raiseBlockError, State.setBiu_biu, if_pos h]

/-- Only ERR and ERRCODE change. -/
theorem raiseBlockError_frame : raiseBlockError c s = { s with biu := { s.biu with
    err := (raiseBlockError c s).biu.err, errCode := (raiseBlockError c s).biu.errCode } } := rfl

/-- An aligned 4-byte write completes, whether or not it raises a BlockError. -/
theorem busAccess_memWrite_answers_next {off : Offset} (v : Word) (h : off.toNat % 4 = 0) :
    ∃ t, busAccess (Txn.memWrite off 4 v) s = .next t := by
  rw [busAccess_memWrite v s h]
  exact writeReg_answers_next off v s

end Sys2Proof.Machine
end

section
/-! The statement about raising a BlockError (60_exceptions.md R161). -/

namespace Sys2Proof.Machine

/-- Settles O8: by whether ERR already stands when the error is raised; a write that raises one is an admitted write. -/
theorem raiseKeepsTheFirstErrorAndTouchesNothingElse : Obligations.RaiseKeepsTheFirstErrorAndTouchesNothingElse :=
  fun _ _ => ⟨raiseBlockError_err, raiseBlockError_errCode_of_clear, raiseBlockError_errCode_of_set, raiseBlockError_frame,
    fun _ => busAccess_memWrite_answers_next⟩

end Sys2Proof.Machine
end

section
/-! SUPPORT. A property of the block is kept by every step if every `BlockStep` keeps it (10_state.md R21, R46). -/

namespace Sys2Proof.Machine

/-- A property that only the block decides: the host, the schedule and the turn are no part of it. -/
def OfBlock (P : State → Prop) : Prop :=
  ∀ (s : State) (host : HostState) (schedule : List Agent) (turn : Nat),
    P s → P { s with host := host, schedule := schedule, turn := turn }

variable {P : State → Prop} {a : Agent} {s t : State}

theorem SameBlock.eq_of_block (h : SameBlock s t) :
    t = { s with host := t.host, schedule := t.schedule, turn := t.turn } := by
  obtain ⟨hnw, hbiu, hsha, hmexp⟩ := h
  rw [hnw, hbiu, hsha, hmexp]

theorem OfBlock.of_sameBlock (hP : OfBlock P) (h : SameBlock s t) (hs : P s) : P t := by
  rw [h.eq_of_block]
  exact hP s _ _ _ hs

/-- Taking an agent off the schedule leaves the block. -/
theorem sameBlock_chosen (s : State) : SameBlock s (chosen s) :=
  ⟨(chosen_nw s).symm, (chosen_biu s).symm, (chosen_sha s).symm, (chosen_mexp s).symm⟩

theorem OfBlock.kept_by_agentStep (hP : OfBlock P) (hstep : ∀ {s t}, BlockStep s t → P s → P t)
    (h : agentStep a s = .next t) (hs : P s) : P t := by
  obtain ⟨u, hu, hut⟩ := agentStep_block h
  exact hP.of_sameBlock hut (hstep hu hs)

/-- What holds at `s` and is kept by every change of the block holds after the step. -/
theorem OfBlock.kept_by_step (hP : OfBlock P) (hstep : ∀ {s t}, BlockStep s t → P s → P t)
    (h : step s = .next t) (hs : P s) : P t :=
  hP.kept_by_agentStep hstep h (hP.of_sameBlock (sameBlock_chosen s) hs)

/-- No change of the block touches NW, the host or the schedule. -/
theorem BlockStep.frame (h : BlockStep s t) :
    t.nw = s.nw ∧ t.host = s.host ∧ t.schedule = s.schedule ∧ t.turn = s.turn := by
  cases h <;> exact ⟨rfl, rfl, rfl, rfl⟩

end Sys2Proof.Machine
end

section
/-! SUPPORT. The ranges and relations of the state, one by one, under every change of the block (10_state.md R29, R33, R38, R40,
R41). -/

namespace Sys2Proof.Machine

open Sys2Proof.Safety

variable {s t : State}

theorem paramInv_of_blockStep (h : BlockStep s t) (hs : ParamInv s) : ParamInv t := by
  obtain ⟨h1, h64, hopa, hopb, hmod, hresult⟩ := hs
  cases h with
  | reset => exact ⟨h1, h64, List.length_replicate, List.length_replicate, List.length_replicate, List.length_replicate⟩
  | opa _ i v => exact ⟨h1, h64, List.length_set.trans hopa, hopb, hmod, hresult⟩
  | opb _ i v => exact ⟨h1, h64, hopa, List.length_set.trans hopb, hmod, hresult⟩
  | mod _ i v => exact ⟨h1, h64, hopa, hopb, List.length_set.trans hmod, hresult⟩
  | mexpComplete => exact ⟨h1, h64, hopa, hopb, hmod, natToWords_length _ _⟩
  | _ => exact ⟨h1, h64, hopa, hopb, hmod, hresult⟩

/-- Raising keeps a code that stands and records one that is not NONE; clearing ERR clears ERRCODE with it. -/
theorem errInv_of_blockStep (h : BlockStep s t) (hs : ErrInv s) : ErrInv t := by
  unfold ErrInv at hs ⊢
  cases h with
  | raise c hc =>
    cases he : s.biu.err with
    | false => simp [raiseBlockError_errCode_of_clear he, hc]
    | true => simp [raiseBlockError_errCode_of_set he, ← hs, he]
  | statusW1c v => cases hv : v.getLsbD 4 <;> simp only [statusW1c, State.setBiu_biu, hv, hs, Bool.not_false, Bool.not_true,
      Bool.and_true, Bool.and_false, Bool.false_eq_true, if_true, if_false]
  | reset => simp [Biu.reset]
  | _ => exact hs

/-- Acceptance clears the DONE bit of its unit; the step that sets it ends the run. -/
theorem doneInv_of_blockStep (h : BlockStep s t) (hs : DoneInv s) : DoneInv t := by
  obtain ⟨hsha, hmexp⟩ := hs
  cases h with
  | statusW1c v =>
    exact ⟨fun hb => by simp [statusW1c, hsha hb], fun hb => by simp [statusW1c, hmexp hb]⟩
  | reset => exact ⟨fun _ => rfl, fun _ => rfl⟩
  | sha1Accept => exact ⟨fun _ => rfl, hmexp⟩
  | sha1Abort | sha1Complete => exact ⟨fun hb => absurd (shaBusy_eq_true.mp hb) (by simp [sha1Complete]), hmexp⟩
  | sha1Round hr => exact ⟨fun _ => hsha (shaBusy_eq_true.mpr hr), hmexp⟩
  | mexpAcceptExp | mexpAcceptMul => exact ⟨hsha, fun _ => rfl⟩
  | mexpAbort | mexpComplete => exact ⟨hsha, fun hb => absurd rfl (mexpBusy_eq_true.mp hb)⟩
  | _ => exact ⟨hsha, hmexp⟩

theorem shaIdleInv_of_blockStep (h : BlockStep s t) (hs : ShaIdleInv s) : ShaIdleInv t := by
  cases h with
  | reset | sha1Accept | sha1Abort | sha1Complete => exact fun _ => rfl
  | sha1Round hr => exact fun hi => nomatch hr.symm.trans hi
  | _ => exact hs

/-- The value of an operand file of NW words fits in N bits (R33). -/
theorem wordsToNat_lt_operandBits {ws : List Word} {nw : Nat} (h : ws.length = nw) : wordsToNat ws < 2 ^ operandBits nw :=
  h ▸ wordsToNat_lt ws

/-- Acceptance captures a modulus that is not 0 and reduces by it; every later bit is reduced by it, and u.e only shrinks. -/
theorem mexpRangeInv_of_blockStep (h : BlockStep s t) (hp : ParamInv s) (hs : MexpRangeInv s) : MexpRangeInv t := by
  obtain ⟨hnw, -, -, hopb, hmod, -⟩ := hp
  obtain ⟨h1, hm, hb, he, hr⟩ := hs
  have hzero : (0 : Nat) < 2 ^ operandBits s.nw := Nat.two_pow_pos _
  have hone : 1 < 2 ^ operandBits s.nw := Nat.one_lt_two_pow (by unfold operandBits; omega)
  cases h with
  | reset | mexpAbort => exact ⟨le_rfl, hone, Nat.one_pos, hzero, Nat.one_pos⟩
  | mexpAcceptExp _ hm0 =>
    have hpos := Nat.pos_of_ne_zero hm0
    exact ⟨hpos, wordsToNat_lt_operandBits hmod, Nat.mod_lt _ hpos, wordsToNat_lt_operandBits hopb, Nat.mod_lt _ hpos⟩
  | mexpAcceptMul _ hm0 =>
    have hpos := Nat.pos_of_ne_zero hm0
    exact ⟨hpos, wordsToNat_lt_operandBits hmod, hpos, hzero, Nat.mod_lt _ hpos⟩
  | mexpBit =>
    refine ⟨h1, hm, Nat.mod_lt _ h1, (Nat.div_le_self _ _).trans_lt he, ?_⟩
    simp only [State.setMexp_mexp, mexpBit]
    split_ifs
    · exact Nat.mod_lt _ h1
    · exact hr
  | _ => exact ⟨h1, hm, hb, he, hr⟩

end Sys2Proof.Machine
end

section
/-! SUPPORT. The running SHA1 unit and the compression it is on the way to (42_sha1.md R141, R148). -/

namespace Sys2Proof.Machine

open Sys2Proof.Safety

variable {s t : State}

/-- Right after acceptance the window is the block. -/
theorem windowHolds_zero (m : Vector Word 16) : WindowHolds m m 0 := by
  intro j hj _
  have hlt : j < 16 := by omega
  simp only [Nat.mod_eq_of_lt hlt, scheduleWord_of_lt m hlt]

/-- A round puts its own word in the place of the one 16 before it, and leaves the others. -/
theorem windowHolds_succ {m w : Vector Word 16} {n : Nat} (hw : WindowHolds m w n) (hn : n < 80) :
    WindowHolds m (windowNext w n) (n + 1) := by
  intro j hj hj16
  by_cases h16 : n < 16
  · simp only [windowNext, if_pos h16]
    exact hw j (by omega) (by omega)
  · obtain rfl | hne := eq_or_ne j n
    · rw [windowNext_getElem, windowWord_eq_scheduleWord hw hn]
    · simp only [windowNext, if_neg h16]
      rw [Vector.getElem_set_ne _ _ (by omega)]
      exact hw j (by omega) (by omega)

/-- Writes to H and MSG need the idle unit, a round is one more round, and every other change leaves the unit or its run ends. -/
theorem shaTracks_of_blockStep (h : BlockStep s t) (hs : ShaTracks s) : ShaTracks t := by
  cases h with
  | reset | sha1Abort | sha1Complete => exact fun hr => nomatch hr
  | h hi | msg hi | sha1Init hi => exact fun hr => nomatch hi.symm.trans hr
  | sha1Accept => exact fun _ => ⟨rfl, windowHolds_zero s.sha.msg⟩
  | sha1Round hr ht =>
    obtain ⟨hwork, hwindow⟩ := hs hr
    refine fun _ => ⟨?_, windowHolds_succ hwindow ht⟩
    simp only [State.setSha_sha, sha1Round, roundsFrom]
    rw [windowWord_eq_scheduleWord hwindow ht, hwork]
  | _ => exact hs

end Sys2Proof.Machine
end

section
/-! SUPPORT. The running MEXP unit and the result it is on the way to (41_modexp.md R114, R120). -/

namespace Sys2Proof.Machine

open Sys2Proof.Safety

variable {s t : State}

/-- One exponent bit keeps r * b^e modulo m: b^e = (b * b)^(e / 2), times b where bit 0 of e is 1. -/
theorem mexpBit_pow_mod (u : MexpUnit) :
    (mexpBit u).r * (mexpBit u).b ^ (mexpBit u).e % (mexpBit u).m = u.r * u.b ^ u.e % u.m := by
  have hb : (mexpBit u).b ^ (mexpBit u).e ≡ (u.b * u.b) ^ (u.e / 2) [MOD u.m] := (Nat.mod_modEq _ _).pow _
  by_cases hodd : u.e % 2 = 1
  · have hr : (mexpBit u).r ≡ u.r * u.b [MOD u.m] := by
      simp only [mexpBit, if_pos hodd]
      exact Nat.mod_modEq _ _
    have he : u.r * u.b ^ u.e = u.r * u.b * (u.b * u.b) ^ (u.e / 2) := by
      conv_lhs => rw [← Nat.div_add_mod u.e 2, hodd]
      ring
    exact he ▸ hr.mul hb
  · have hr : (mexpBit u).r = u.r := if_neg hodd
    have he : u.r * u.b ^ u.e = u.r * (u.b * u.b) ^ (u.e / 2) := by
      conv_lhs => rw [← Nat.div_add_mod u.e 2, Nat.mod_two_ne_one.mp hodd]
      ring
    rw [he, hr]
    exact hb.mul_left u.r

/-- The accepted unit starts at 1 * OPA^OPB modulo MOD (R116). -/
theorem one_mod_mul_pow_mod (a e m : Nat) : 1 % m * (a % m) ^ e % m = modExp a e m := by
  have h := (Nat.mod_modEq 1 m).mul ((Nat.mod_modEq a m).pow e)
  rwa [one_mul] at h

/-- Writes to the operands need the idle unit, acceptance starts on the way, and an exponent bit stays on it. -/
theorem mexpTracks_of_blockStep (h : BlockStep s t) (hs : MexpTracks s) : MexpTracks t := by
  obtain ⟨hexp, hmul⟩ := hs
  cases h with
  | reset | mexpAbort | mexpComplete => exact ⟨(nomatch ·), (nomatch ·)⟩
  | opa hi | opb hi | mod hi => exact ⟨(nomatch hi.symm.trans ·), (nomatch hi.symm.trans ·)⟩
  | mexpAcceptExp => exact ⟨fun _ => ⟨rfl, one_mod_mul_pow_mod _ _ _⟩, (nomatch ·)⟩
  | mexpAcceptMul => exact ⟨(nomatch ·), fun _ => ⟨rfl, rfl⟩⟩
  | mexpBit hp =>
    obtain ⟨hm, hr⟩ := hexp hp
    exact ⟨fun _ => ⟨hm, (mexpBit_pow_mod s.mexp).trans hr⟩, (nomatch hp.symm.trans ·)⟩
  | _ => exact ⟨hexp, hmul⟩

end Sys2Proof.Machine
end

section
/-! The statements about the decoder (30_encoding.md R82, R85). -/

namespace Sys2Proof

/-- The command word of a command decodes to it: RSVD is 0, and the opcode map lists the command under its OP. -/
theorem decode_encode (i : Instr) : decode (encode i) = .command i := by
  have hop : opcodeMap.lookup (opField (encode i)) = some i := (lookup_opcodeMap_iff _ i).mpr (by cases i <;> rfl)
  have hrsvd : ¬ rsvdField (encode i) ≠ 0 := not_not.mpr (by cases i <;> rfl)
  rw [decode, if_neg hrsvd, hop]

/-- Settles O4: the opcode map has one OP for each command and RSVD = 0 fixes the rest of the word. -/
theorem decodeEncodeAgreeBothWays : Obligations.DecodeEncodeAgreeBothWays :=
  fun i _ => ⟨fun h => (eq_encode_of_decode h).symm, fun h => h ▸ decode_encode i⟩

end Sys2Proof
end

section
/-! The statements about what every step keeps (10_state.md, 41_modexp.md section 2, 42_sha1.md section 2). -/

namespace Sys2Proof.Machine

open Sys2Proof.Safety

theorem stateInv_of_blockStep {s t : State} (h : BlockStep s t) (hs : StateInv s) : StateInv t := by
  obtain ⟨hparam, herr, hdone, hidle, hrange⟩ := hs
  exact ⟨paramInv_of_blockStep h hparam, errInv_of_blockStep h herr, doneInv_of_blockStep h hdone,
    shaIdleInv_of_blockStep h hidle, mexpRangeInv_of_blockStep h hparam hrange⟩

theorem stateInv_ofBlock : OfBlock StateInv := fun _ _ _ _ hs => hs
theorem shaTracks_ofBlock : OfBlock ShaTracks := fun _ _ _ _ hs => hs
theorem mexpTracks_ofBlock : OfBlock MexpTracks := fun _ _ _ _ hs => hs

/-- Settles O31: each range and relation is kept by every change of the block. -/
theorem stateInvariantKeptByEveryStep : Obligations.StateInvariantKeptByEveryStep :=
  fun _ _ hs h => stateInv_ofBlock.kept_by_step stateInv_of_blockStep h hs

/-- Settles O32: a round of the unit is a round of the compression, on the word of the schedule that the window gives. -/
theorem runningBlockStaysOnTheWayToCompress : Obligations.RunningBlockStaysOnTheWayToCompress :=
  fun _ _ hs h => shaTracks_ofBlock.kept_by_step shaTracks_of_blockStep h hs

/-- Settles O33: an exponent bit keeps u.r * u.b^u.e modulo u.m. -/
theorem runningCommandStaysOnTheWayToItsResult : Obligations.RunningCommandStaysOnTheWayToItsResult :=
  fun _ _ hs h => mexpTracks_ofBlock.kept_by_step mexpTracks_of_blockStep h hs

end Sys2Proof.Machine
end

section
/-! SUPPORT. The commands of the MEXP unit by its state (41_modexp.md R113, R116, R117), and the unit's step as the step of its
agent (R114). -/

namespace Sys2Proof.Machine

variable {s : State} {accept : State → State}

theorem mexpAcceptOr_of_busy (hb : s.mexp.phase ≠ .idle) : mexpAcceptOr accept s = raiseBlockError .mexpBusy s :=
  if_pos (mexpBusy_eq_true.mpr hb)

theorem mexpAcceptOr_of_not_busy (hi : s.mexp.phase = .idle) :
    mexpAcceptOr accept s = if modValue s = 0 then raiseBlockError .modZero s else accept s :=
  if_neg (Bool.eq_false_iff.mp (mexpBusy_eq_false.mpr hi))

theorem mexpAcceptOr_of_modZero (hi : s.mexp.phase = .idle) (hm : modValue s = 0) :
    mexpAcceptOr accept s = raiseBlockError .modZero s := (mexpAcceptOr_of_not_busy hi).trans (if_pos hm)

theorem mexpAcceptOr_of_idle (hi : s.mexp.phase = .idle) (hm : modValue s ≠ 0) : mexpAcceptOr accept s = accept s :=
  (mexpAcceptOr_of_not_busy hi).trans (if_neg hm)

theorem exec_mexpExp_of_idle (hi : s.mexp.phase = .idle) (hm : modValue s ≠ 0) :
    exec .mexpExp s = .next (mexpAcceptExp s) := congrArg Host.Outcome.next (mexpAcceptOr_of_idle hi hm)

theorem exec_mexpMul_of_idle (hi : s.mexp.phase = .idle) (hm : modValue s ≠ 0) :
    exec .mexpMul s = .next (mexpAcceptMul s) := congrArg Host.Outcome.next (mexpAcceptOr_of_idle hi hm)

@[simp] theorem agentStep_sha1 (s : State) : agentStep .sha1 s = .next (sha1Step s) := rfl
@[simp] theorem agentStep_mexp (s : State) : agentStep .mexp s = .next (mexpStep s) := rfl

end Sys2Proof.Machine
end

section
/-! SUPPORT. What each unit's commands leave (00_scope.md R2; 42_sha1.md R140, R144, R146; 41_modexp.md R116 to R118). -/

namespace Sys2Proof.Machine

variable {s t : State} {i : Instr}

@[simp] theorem sha1Abort_biu (s : State) : (sha1Abort s).biu = s.biu := by
  unfold sha1Abort
  split <;> rfl

@[simp] theorem mexpAbort_biu (s : State) : (mexpAbort s).biu = s.biu := by
  unfold mexpAbort
  split <;> rfl

/-- What a SHA1 command leaves: the MEXP unit with its DONE bit, MSG and IRQ_EN. -/
def ShaCommandFrame (s t : State) : Prop :=
  t.mexp = s.mexp ∧ t.sha.msg = s.sha.msg ∧ t.biu.mexpDone = s.biu.mexpDone ∧ t.biu.irqEn = s.biu.irqEn

theorem shaBusyCheck_frame {u : State} (hu : ShaCommandFrame s u)
    (h : (if shaBusy s then .next (raiseBlockError .shaBusy s) else .next u : Outcome) = .next t) :
    ShaCommandFrame s t := by
  split_ifs at h <;> cases h
  · exact ⟨rfl, rfl, rfl, rfl⟩
  · exact hu

theorem sha1Abort_frame (s : State) : ShaCommandFrame s (sha1Abort s) := by
  unfold sha1Abort
  split <;> exact ⟨rfl, rfl, rfl, rfl⟩

theorem exec_shaCommand_frame (hi : i = .sha1Init ∨ i = .sha1Block ∨ i = .sha1Abort) (h : exec i s = .next t) :
    ShaCommandFrame s t := by
  obtain rfl | rfl | rfl := hi
  · exact shaBusyCheck_frame (u := sha1Init s) ⟨rfl, rfl, rfl, rfl⟩ h
  · exact shaBusyCheck_frame (u := sha1Accept s) ⟨rfl, rfl, rfl, rfl⟩ h
  · cases h
    exact sha1Abort_frame s

/-- The registers and flags that a MEXP command leaves: the SHA1 unit with its DONE bit, IRQ_EN, the operands and RESULT. -/
def MexpCommandFrame (s t : State) : Prop :=
  t.sha = s.sha ∧ t.biu.shaDone = s.biu.shaDone ∧ t.biu.irqEn = s.biu.irqEn ∧ t.mexp.opa = s.mexp.opa ∧
    t.mexp.opb = s.mexp.opb ∧ t.mexp.mod = s.mexp.mod ∧ t.mexp.result = s.mexp.result

theorem mexpAcceptOr_frame {accept : State → State} (h : MexpCommandFrame s (accept s)) :
    MexpCommandFrame s (mexpAcceptOr accept s) := by
  unfold mexpAcceptOr
  split_ifs
  · exact ⟨rfl, rfl, rfl, rfl, rfl, rfl, rfl⟩
  · exact ⟨rfl, rfl, rfl, rfl, rfl, rfl, rfl⟩
  · exact h

theorem mexpAbort_frame (s : State) : MexpCommandFrame s (mexpAbort s) := by
  unfold mexpAbort
  split <;> exact ⟨rfl, rfl, rfl, rfl, rfl, rfl, rfl⟩

theorem exec_mexpCommand_frame (hi : i = .mexpExp ∨ i = .mexpMul ∨ i = .mexpAbort) (h : exec i s = .next t) :
    MexpCommandFrame s t := by
  obtain rfl | rfl | rfl := hi <;> cases h
  · exact mexpAcceptOr_frame ⟨rfl, rfl, rfl, rfl, rfl, rfl, rfl⟩
  · exact mexpAcceptOr_frame ⟨rfl, rfl, rfl, rfl, rfl, rfl, rfl⟩
  · exact mexpAbort_frame s

/-- A command is NOP, SRST, or one of one unit (R82). -/
theorem command_unit_cases (i : Instr) : i = .nop ∨ i = .srst ∨ (i = .sha1Init ∨ i = .sha1Block ∨ i = .sha1Abort) ∨
    (i = .mexpExp ∨ i = .mexpMul ∨ i = .mexpAbort) := by
  cases i <;> decide

/-- Every command but SRST leaves IRQ_EN, MSG, the operands and RESULT. -/
theorem exec_registers_frame (hi : i ≠ .srst) (h : exec i s = .next t) :
    t.biu.irqEn = s.biu.irqEn ∧ t.sha.msg = s.sha.msg ∧ t.mexp.opa = s.mexp.opa ∧ t.mexp.opb = s.mexp.opb ∧
      t.mexp.mod = s.mexp.mod ∧ t.mexp.result = s.mexp.result := by
  obtain rfl | hsrst | hsha | hmexp := command_unit_cases i
  · cases h
    exact ⟨rfl, rfl, rfl, rfl, rfl, rfl⟩
  · exact absurd hsrst hi
  · obtain ⟨hm, hmsg, -, hirq⟩ := exec_shaCommand_frame hsha h
    rw [hm]
    exact ⟨hirq, hmsg, rfl, rfl, rfl, rfl⟩
  · obtain ⟨hs, -, hirq, hrest⟩ := exec_mexpCommand_frame hmexp h
    rw [hs]
    exact ⟨hirq, rfl, hrest⟩

end Sys2Proof.Machine
end

section
/-! SUPPORT. What a unit's command or step makes of the unit is decided by the unit, and by NW for RESULT (00_scope.md R2). -/

namespace Sys2Proof.Machine

variable {s s' t t' : State} {i : Instr}

theorem modValue_congr (hm : s.mexp = s'.mexp) : modValue s = modValue s' := congrArg (fun u : MexpUnit => wordsToNat u.mod) hm
theorem opaValue_congr (hm : s.mexp = s'.mexp) : opaValue s = opaValue s' := congrArg (fun u : MexpUnit => wordsToNat u.opa) hm
theorem opbValue_congr (hm : s.mexp = s'.mexp) : opbValue s = opbValue s' := congrArg (fun u : MexpUnit => wordsToNat u.opb) hm

/-- Where the acceptance of a MEXP command depends on the unit only, so does the command. -/
theorem mexpAcceptOr_mexp_congr {accept : State → State} (hm : s.mexp = s'.mexp)
    (ha : (accept s).mexp = (accept s').mexp) : (mexpAcceptOr accept s).mexp = (mexpAcceptOr accept s').mexp := by
  have hb : mexpBusy s = mexpBusy s' := congrArg (fun u : MexpUnit => decide (u.phase ≠ .idle)) hm
  unfold mexpAcceptOr
  rw [hb, modValue_congr hm]
  split_ifs
  · exact hm
  · exact hm
  · exact ha

theorem mexpAbort_mexp_congr (hm : s.mexp = s'.mexp) : (mexpAbort s).mexp = (mexpAbort s').mexp := by
  by_cases hi : s'.mexp.phase = .idle
  · rw [mexpAbort_of_idle hi, mexpAbort_of_idle (hm ▸ hi), hm]
  · rw [mexpAbort_of_busy hi, mexpAbort_of_busy (hm ▸ hi), State.setMexp_mexp, State.setMexp_mexp, hm]

theorem exec_mexpCommand_congr (hi : i = .mexpExp ∨ i = .mexpMul ∨ i = .mexpAbort) (hm : s.mexp = s'.mexp)
    (h : exec i s = .next t) (h' : exec i s' = .next t') : t.mexp = t'.mexp := by
  obtain rfl | rfl | rfl := hi <;> cases h <;> cases h'
  · refine mexpAcceptOr_mexp_congr hm ?_
    simp only [mexpAcceptExp, State.setMexp_mexp, modValue_congr hm, opaValue_congr hm, opbValue_congr hm, hm]
  · refine mexpAcceptOr_mexp_congr hm ?_
    simp only [mexpAcceptMul, State.setMexp_mexp, modValue_congr hm, opaValue_congr hm, opbValue_congr hm, hm]
  · exact mexpAbort_mexp_congr hm

/-- The completion writes NW words, so the unit's step depends on NW too. -/
theorem mexpStep_mexp_congr (hn : s.nw = s'.nw) (hm : s.mexp = s'.mexp) : (mexpStep s).mexp = (mexpStep s').mexp := by
  have hcomplete : (mexpComplete s).mexp = (mexpComplete s').mexp := by
    simp only [mexpComplete, State.setMexp_mexp, hn, hm]
  cases hp : s'.mexp.phase <;> simp only [mexpStep, hm, hp]
  case exp =>
    split_ifs
    · rfl
    · exact hcomplete
  case mul => exact hcomplete

theorem shaBusyCheck_congr {u u' : State} (hs : s.sha = s'.sha) (hu : u.sha = u'.sha)
    (h : (if shaBusy s then .next (raiseBlockError .shaBusy s) else .next u : Outcome) = .next t)
    (h' : (if shaBusy s' then .next (raiseBlockError .shaBusy s') else .next u' : Outcome) = .next t') :
    t.sha = t'.sha := by
  have hb : shaBusy s = shaBusy s' := congrArg (fun x : ShaUnit => decide (x.phase = .run)) hs
  rw [hb] at h
  split_ifs at h h' <;> cases h <;> cases h'
  · exact hs
  · exact hu

theorem sha1Abort_sha_congr (hs : s.sha = s'.sha) : (sha1Abort s).sha = (sha1Abort s').sha := by
  cases hp : s'.sha.phase <;> simp only [sha1Abort, State.setSha_sha, hs, hp]

theorem exec_shaCommand_congr (hi : i = .sha1Init ∨ i = .sha1Block ∨ i = .sha1Abort) (hs : s.sha = s'.sha)
    (h : exec i s = .next t) (h' : exec i s' = .next t') : t.sha = t'.sha := by
  obtain rfl | rfl | rfl := hi
  · refine shaBusyCheck_congr hs ?_ h h'
    simp only [sha1Init, State.setSha_sha, hs]
  · refine shaBusyCheck_congr hs ?_ h h'
    simp only [sha1Accept, State.setSha_sha, hs]
  · cases h
    cases h'
    exact sha1Abort_sha_congr hs

theorem sha1Step_sha_congr (hs : s.sha = s'.sha) : (sha1Step s).sha = (sha1Step s').sha := by
  cases hp : s'.sha.phase <;> simp only [sha1Step, hs, hp]
  case run =>
    split_ifs
    · rfl
    · simp only [sha1Complete, State.setSha_sha, hs]

end Sys2Proof.Machine
end

section
/-! The statements about the commands and the steps of the MEXP unit, and about what the commands leave (40_control.md,
41_modexp.md section 2). -/

namespace Sys2Proof.Machine

/-- Settles O12: the next state written out is `mexpAcceptExp`'s. -/
theorem mexpExpIsAccepted : Obligations.MexpExpIsAccepted := fun _ => exec_mexpExp_of_idle

/-- Settles O13: the next state written out is `mexpAcceptMul`'s. -/
theorem mexpMulIsAccepted : Obligations.MexpMulIsAccepted := fun _ => exec_mexpMul_of_idle

/-- Settles O15: both commands are `mexpAcceptOr`, which asks for the phase before it looks at MOD. -/
theorem mexpCommandsAreRejectedInOrder : Obligations.MexpCommandsAreRejectedInOrder := by
  rintro s i (rfl | rfl) <;>
    exact ⟨fun hb => congrArg Host.Outcome.next (mexpAcceptOr_of_busy hb),
      fun hi hm => congrArg Host.Outcome.next (mexpAcceptOr_of_modZero hi hm)⟩

/-- Settles O23: by the unit's phase and u.e; bit 0 of u.e is its remainder modulo 2. -/
theorem mexpUnitStep : Obligations.MexpUnitStep := by
  refine ⟨fun s hp he => ?_, fun s hd => ?_, fun s hi => ?_⟩ <;> rw [agentStep_mexp]
  · simp only [mexpStep_bit hp he, mexpBit, Nat.testBit_zero, decide_eq_true_eq, State.setMexp]
  · obtain hp | ⟨hp, he⟩ := hd
    · rw [mexpStep_complete (by simp [hp]) (by simp [hp])]
    · rw [mexpStep_complete (by simp [hp]) fun _ => he]
  · rw [mexpStep_idle hi]

/-- Settles O16: every change of the block leaves the rest of the machine, and each unit's commands leave the other unit. -/
theorem commandFrames : Obligations.CommandFrames := by
  intro i s t h
  refine ⟨(exec_block h).frame, fun hi => exec_registers_frame hi h, fun hi => ?_, fun hi => ?_, fun hi => ?_⟩
  · obtain ⟨hm, -, hdone, -⟩ := exec_shaCommand_frame hi h
    exact ⟨hm, hdone⟩
  · obtain ⟨hs, hdone, -⟩ := exec_mexpCommand_frame hi h
    exact ⟨hs, hdone⟩
  · obtain rfl | rfl := hi <;> cases h
    · exact sha1Abort_biu s
    · exact mexpAbort_biu s

/-- Settles O17: each command and step of a unit is a function of the unit, of NW too for the completion of MEXP. -/
theorem unitsDoNotDependOnEachOther : Obligations.UnitsDoNotDependOnEachOther :=
  ⟨fun _ _ _ _ _ hi _ => exec_mexpCommand_congr hi, fun _ _ _ _ _ => exec_shaCommand_congr,
    fun _ _ => mexpStep_mexp_congr, fun _ _ => sha1Step_sha_congr⟩

end Sys2Proof.Machine
end

section
/-! SUPPORT. Where an access, a host statement and an agent's step end in a bus error (20_memory.md R64, 60_exceptions.md
R162). -/

namespace Sys2Proof.Machine

variable {s : State}

theorem admitted_iff {x : Txn} : admitted x = true ↔ x.size = 4 ∧ x.off.toNat % 4 = 0 := by
  simp only [admitted, Bool.and_eq_true, decide_eq_true_eq]

theorem not_admitted_iff {x : Txn} : ¬ admitted x = true ↔ x.size ≠ 4 ∨ x.off.toNat % 4 ≠ 0 := by
  rw [admitted_iff, not_and_or]

/-- A bus access stops exactly where it is not admitted. -/
theorem busAccess_faults_iff {x : Txn} : (∃ r, busAccess x s = .fault r) ↔ x.size ≠ 4 ∨ x.off.toNat % 4 ≠ 0 := by
  rw [← not_admitted_iff]
  refine ⟨fun ⟨r, hr⟩ ha => ?_, fun hn => ⟨_, busAccess_not_admitted s hn⟩⟩
  obtain ⟨u, hu⟩ := busAccess_admitted s ha
  cases hu.symm.trans hr

/-- Of the statements of a host program only `wr` and `rd` can stop, and they at an offset that is not a word's. -/
theorem hostStmt_faults_iff {st : Stmt} : (∃ r, hostStmt st s = .fault r) ↔
    ∃ off : Offset, off.toNat % 4 ≠ 0 ∧ ((∃ src, st = .wr off src) ∨ ∃ k, st = .rd k off) := by
  cases st with
  | wr off src =>
    simp only [hostStmt, mapNext_eq_fault, busAccess_faults_iff]
    simp [Txn.memWrite]
  | rd k off =>
    simp only [hostStmt, mapNext_eq_fault, busAccess_faults_iff]
    simp [Txn.memRead]
  | _ => simp [hostStmt]

theorem hostStep_of_halted (hh : s.host.halted = true) : hostStep s = .next s := if_pos hh

/-- A host that has not halted executes the statement at its pc (R92). -/
theorem hostStep_of_stmt {st : Stmt} (hh : s.host.halted = false) (hst : s.host.prog[s.host.pc]? = some st) :
    hostStep s = hostStmt st s := by
  simp only [hostStep, hh, hst, Bool.false_eq_true, if_false]

theorem hostStep_of_none (hst : s.host.prog[s.host.pc]? = none) : hostStep s = .next s := by
  simp only [hostStep, hst, ite_self]

theorem hostStep_faults_iff : (∃ r, hostStep s = .fault r) ↔ s.host.halted = false ∧ ∃ off : Offset, off.toNat % 4 ≠ 0 ∧
    ((∃ src, s.host.prog[s.host.pc]? = some (.wr off src)) ∨ ∃ k, s.host.prog[s.host.pc]? = some (.rd k off)) := by
  cases hh : s.host.halted with
  | true => simp [hostStep_of_halted hh]
  | false =>
    cases hst : s.host.prog[s.host.pc]? with
    | none => simp [hostStep_of_none hst]
    | some st => simp [hostStep_of_stmt hh hst, hostStmt_faults_iff]

/-- An agent's step stops exactly at an access that is not admitted. -/
theorem agentStep_faults_iff {a : Agent} : (∃ r, agentStep a s = .fault r) ↔
    (∃ x, a = .bus x ∧ (x.size ≠ 4 ∨ x.off.toNat % 4 ≠ 0)) ∨
    (a = .program ∧ s.host.halted = false ∧ ∃ off : Offset, off.toNat % 4 ≠ 0 ∧
      ((∃ src, s.host.prog[s.host.pc]? = some (.wr off src)) ∨ ∃ k, s.host.prog[s.host.pc]? = some (.rd k off))) := by
  cases a with
  | bus x => simp [agentStep, busAccess_faults_iff]
  | program => simp [agentStep, hostStep_faults_iff]
  | sha1 | mexp | reset => simp [agentStep]

end Sys2Proof.Machine
end

section
/-! The statements about the step and what stops it (10_state.md R21, 20_memory.md R64, 40_control.md R100, 60_exceptions.md). -/

namespace Sys2Proof.Machine

open Sys2Proof.Safety

/-- Settles O1: the agent that is next is the access, and it submits the word. -/
theorem stepRunsTheDecodedCommand : Obligations.StepRunsTheDecodedCommand := by
  intro s rest w i hs hd
  calc step s = busAccess (cmdWrite w) (s.setSchedule rest) := by
        rw [step_eq, nextAgent_of_schedule hs, chosen_of_schedule hs]; rfl
    _ = exec i (s.setSchedule rest) := by simp only [busAccess_cmdWrite, command, hd]

/-- Settles O2: by whether the schedule is empty; where it is, the agent is the one that the free value names. -/
theorem stepIsTheStepOfTheNextAgent : Obligations.StepIsTheStepOfTheNextAgent := by
  refine ⟨fun s a rest hs => ?_, fun s hs => ⟨Config.freeAgent s.turn, ?_⟩⟩
  · rw [step_eq, nextAgent_of_schedule hs, chosen_of_schedule hs]
  · simp only [step, nextAgent, chosen, hs]

/-- Settles O5: each word is the encoding of its command. -/
theorem decodesTheOpcodeMapWords : Obligations.DecodesTheOpcodeMapWords :=
  ⟨decode_encode .nop, decode_encode .srst, decode_encode .sha1Init, decode_encode .sha1Block, decode_encode .sha1Abort,
    decode_encode .mexpExp, decode_encode .mexpMul, decode_encode .mexpAbort⟩

/-- Settles O7: SRST and a hardware reset are `resetAll`, which does not look at what it overwrites. -/
theorem srstPutsTheBlockInItsResetState : Obligations.SrstPutsTheBlockInItsResetState :=
  ⟨fun s => ⟨resetAll s, rfl, rfl, statusWord_resetOf s.nw, rfl, rfl, rfl⟩, decode_encode .srst,
    fun s _ _ => command_of_rsvd_ne_zero s⟩

/-- Settles O36: no change of the block touches NW. -/
theorem noStepChangesTheInstance : Obligations.NoStepChangesTheInstance := by
  intro s t h
  obtain ⟨u, hu, hnw, -⟩ := step_block h
  obtain ⟨hn, -⟩ := hu.frame
  rw [← hnw, hn, chosen_nw]

/-- Settles O44: the two conditions are those of `admitted`. -/
theorem onlyAlignedWordsAreAdmitted : Obligations.OnlyAlignedWordsAreAdmitted :=
  ⟨fun s _ hn => busAccess_not_admitted s (not_admitted_iff.mpr hn),
    fun s _ hsize hoff => busAccess_admitted s (admitted_iff.mpr ⟨hsize, hoff⟩)⟩

/-- Settles O45: the step is the next agent's, in a state with the same host. -/
theorem onlyBusErrorsStopTheMachine : Obligations.OnlyBusErrorsStopTheMachine := by
  refine fun s => ⟨agentStep_not_refused _ _, ?_⟩
  have hfault : ¬ StepSafe s ↔ ∃ r, agentStep (nextAgent s) (chosen s) = .fault r := by
    simp only [StepSafe, step_eq, ne_eq, not_forall, not_not]
  rw [hfault, agentStep_faults_iff, chosen_host]

/-- Settles O34: right after reset every field has its literal value, and both units are idle. -/
theorem invariantsHoldAtReset : Obligations.InvariantsHoldAtReset := by
  refine ⟨fun nw h1 h64 => ⟨⟨?_, ?_, ?_, ?_, ?_⟩, (nomatch ·), (nomatch ·), (nomatch ·)⟩, rfl⟩
  · exact ⟨h1, h64, List.length_replicate, List.length_replicate, List.length_replicate, List.length_replicate⟩
  · exact iff_of_true rfl rfl
  · exact ⟨fun _ => rfl, fun _ => rfl⟩
  · exact fun _ => rfl
  · have hone : 1 < 2 ^ operandBits nw := Nat.one_lt_two_pow (by unfold operandBits; omega)
    exact ⟨le_rfl, hone, Nat.one_pos, Nat.one_pos.trans hone, Nat.one_pos⟩

end Sys2Proof.Machine
end

section
/-! The statement about rotl32 (00_scope.md R10). -/

namespace Sys2Proof.Machine

/-- Settles O19: the bits shifted left stand above the n bits shifted right, so the union of the two is their sum. -/
theorem rotationOnNumbers : Obligations.RotationOnNumbers := by
  intro x n hn hn32
  have hx := x.isLt
  have hlow : x.toNat / 2 ^ (32 - n) < 2 ^ n := by
    rw [Nat.div_lt_iff_lt_mul (Nat.two_pow_pos _), ← pow_add, Nat.add_sub_cancel' hn32.le]
    exact hx
  have hhigh : x.toNat * 2 ^ n % 2 ^ 32 = 2 ^ n * (x.toNat % 2 ^ (32 - n)) := by
    rw [mul_comm, ← Nat.mul_mod_mul_left, ← pow_add, Nat.add_sub_cancel' hn32.le]
  rw [rotl32, BitVec.toNat_or, BitVec.toNat_shiftLeft, BitVec.toNat_ushiftRight, Nat.shiftLeft_eq, Nat.shiftRight_eq_div_pow,
    hhigh, Nat.two_pow_add_eq_or_of_lt hlow]

end Sys2Proof.Machine
end

section
/-! The statements about the host (30_encoding.md R88 to R92, 70_reset_and_hazards.md R193) and its procedures (42_sha1.md R152,
R155; 41_modexp.md R113). -/

namespace Sys2Proof.Machine

open Sys2Proof.Safety

/-- A branch sets the pc and nothing else (R89, R92). -/
theorem hostBranch_eq (p : Prop) [Decidable p] (target : Nat) (s : State) :
    hostBranch (decide p) target s = s.setHost { s.host with pc := if p then target else s.host.pc + 1 } := by
  by_cases hp : p
  · simp only [hp, decide_true, if_true]
    rfl
  · simp only [hp, decide_false, if_false]
    rfl

/-- The addition of words wraps modulo 2^32 (R10). -/
theorem word_add_eq_ofNat (x y : Word) : x + y = BitVec.ofNat 32 ((x.toNat + y.toNat) % 2 ^ 32) := by
  rw [← BitVec.toNat_add, BitVec.ofNat_toNat, BitVec.setWidth_eq]

/-- Settles O54: the statement is one admitted access, and `hostNext` or `hostSetNext` after it; a write leaves the host. -/
theorem hostBusStatements : Obligations.HostBusStatements := by
  refine fun s hh => ⟨fun off src hst ha => ?_, fun k off hst ha => ?_⟩
  · obtain ⟨t, ht⟩ := busAccess_memWrite_answers_next (s := s) (srcValue s src) ha
    have hhost : t.host = s.host := writeReg_host ((busAccess_memWrite _ s ha).symm.trans ht)
    refine ⟨t, ht, ?_⟩
    rw [agentStep, hostStep_of_stmt hh hst, hostStmt, ht, ← hhost]
    rfl
  · rw [agentStep, hostStep_of_stmt hh hst, hostStmt, busAccess_memRead s ha, ← hh]
    rfl

/-- Settles O55: by the statement at the pc; a branch by whether it is taken. -/
theorem hostComputationStatements : Obligations.HostComputationStatements := by
  intro s st hh hst
  simp only [agentStep, hostStep_of_stmt hh hst]
  refine ⟨?_, ?_, ?_, ?_, ?_, ?_, ?_, ?_, ?_⟩
  · rintro k imm rfl; rfl
  · rintro k j rfl; rfl
  · rintro k j imm rfl; rfl
  · rintro k j imm rfl
    rw [← word_add_eq_ofNat]
    rfl
  · rintro k imm l rfl
    exact congrArg Host.Outcome.next (hostBranch_eq (hostReg s k = imm) l s)
  · rintro k imm l rfl
    have h := hostBranch_eq (hostReg s k ≠ imm) l s
    rw [ite_not] at h
    exact congrArg Host.Outcome.next h
  · rintro k j l rfl
    exact congrArg Host.Outcome.next (hostBranch_eq (hostReg s k = hostReg s j) l s)
  · rintro l rfl; rfl
  · rintro rfl; rfl

/-- Settles O56: a halted host makes no move, and the step of an idle unit is a pause. -/
theorem endedRunsStay : Obligations.EndedRunsStay := by
  rintro s a ⟨hh, hsha, hmexp⟩ (rfl | rfl | rfl)
  · exact hostStep_of_halted hh
  · rw [agentStep_sha1, sha1Step_idle (shaBusy_eq_false.mp hsha)]
  · rw [agentStep_mexp, mexpStep_idle (mexpBusy_eq_false.mp hmexp)]

/-- Settles O60: each procedure checks its bound first; the words of a value below 2^(32 NW) give it back. -/
theorem hostProceduresRefuseOnlyWhatDoesNotFit : Obligations.HostProceduresRefuseOnlyWhatDoesNotFit := by
  refine ⟨fun _ => rfl, fun m => ⟨fun h => if_pos h, fun h => if_neg (by omega)⟩, fun nw v => ⟨fun h0 hv => ?_, fun hv => ?_⟩⟩
  · obtain ⟨n, rfl⟩ := Int.eq_ofNat_of_zero_le h0
    have hn : n < 2 ^ (32 * nw) := by exact_mod_cast hv
    refine ⟨natToWords nw n, if_pos ⟨h0, hv⟩, natToWords_length nw n, ?_⟩
    rw [wordsToNat_natToWords, Nat.mod_eq_of_lt hn]
  · refine if_neg fun ⟨h0, hlt⟩ => ?_
    simp only [operandBits] at hlt
    omega

end Sys2Proof.Machine
end

section
/-! SUPPORT. A read of one register of the window after a change of another (10_state.md R25, R36, R37). -/

namespace Sys2Proof.Machine

open Sys2Proof.Safety

variable {s : State} {off off' : Offset}

/-- Two word offsets that name the same register are the same offset, reserved ones apart (R25). -/
theorem offset_eq_of_registerAt_eq {nw : Nat} (ha : Aligned off) (ha' : Aligned off')
    (hr : registerAt nw off = registerAt nw off') (hne : registerAt nw off ≠ .reserved) : off = off' := by
  have hoff := registerAt_offset (nw := nw) ha
  have hoff' := registerAt_offset (nw := nw) ha'
  rw [← hr] at hoff'
  cases h : registerAt nw off <;> rw [h] at hoff hoff' hne
  case id | param | cmd | status | irqEn | h | msg => exact hoff.trans hoff'.symm
  case opa | opb | mod | result => exact hoff.1.trans hoff'.1.symm
  case reserved => exact absurd rfl hne

/-- STATUS shows the BIU, whether each unit is busy, and u.t (R29, R43). -/
theorem statusWord_congr {t : State} (hbiu : t.biu = s.biu) (hsha : shaBusy t = shaBusy s) (ht : t.sha.t = s.sha.t)
    (hmexp : mexpBusy t = mexpBusy s) : statusWord t = statusWord s := by
  unfold statusWord irq
  rw [hbiu, hsha, ht, hmexp]

/-- A read shows of the SHA1 unit H, MSG, the phase and u.t only (R36, R43). -/
theorem readReg_setSha {u : ShaUnit} (hp : u.phase = s.sha.phase) (ht : u.t = s.sha.t)
    (hh : ∀ k : Fin 5, registerAt s.nw off = .h k → u.h.get k = s.sha.h.get k)
    (hm : ∀ j : Fin 16, registerAt s.nw off = .msg j → u.msg.get j = s.sha.msg.get j) :
    readReg (s.setSha u) off = readReg s off := by
  unfold readReg
  rw [State.setSha_nw]
  cases hr : registerAt s.nw off with
  | h k => exact hh k hr
  | msg j => exact hm j hr
  | status => exact statusWord_congr rfl (congrArg (decide <| · = ShaPhase.run) hp) ht rfl
  | _ => rfl

/-- A read shows of the MEXP unit the four operand files and the phase only (R36, R43). -/
theorem readReg_setMexp {u : MexpUnit} (hp : u.phase = s.mexp.phase)
    (ha : ∀ i, registerAt s.nw off = .opa i → operandWord u.opa i = operandWord s.mexp.opa i)
    (hb : ∀ i, registerAt s.nw off = .opb i → operandWord u.opb i = operandWord s.mexp.opb i)
    (hm : ∀ i, registerAt s.nw off = .mod i → operandWord u.mod i = operandWord s.mexp.mod i)
    (hres : ∀ i, registerAt s.nw off = .result i → operandWord u.result i = operandWord s.mexp.result i) :
    readReg (s.setMexp u) off = readReg s off := by
  unfold readReg
  rw [State.setMexp_nw]
  cases hr : registerAt s.nw off with
  | opa i => exact ha i hr
  | opb i => exact hb i hr
  | mod i => exact hm i hr
  | result i => exact hres i hr
  | status => exact statusWord_congr rfl rfl rfl (congrArg (decide <| · ≠ MexpPhase.idle) hp)
  | _ => rfl

theorem operandWord_set_ne {ws : List Word} {i j : Nat} (v : Word) (h : j ≠ i) :
    operandWord (ws.set i v) j = operandWord ws j := by
  simp [operandWord, List.getD_eq_getElem?_getD, List.getElem?_set_ne h.symm]

end Sys2Proof.Machine
end

section
/-! SUPPORT. The write to an input register of an idle unit: the state it answers, its read-back and the reads it leaves
(10_state.md R35, R37). -/

namespace Sys2Proof.Machine

open Sys2Proof.Safety

variable {s : State} {off : Offset}

/-- Two states of the SHA1 unit that differ in H and MSG at most. -/
def ShaUnit.SameRun (u u' : ShaUnit) : Prop := u'.phase = u.phase ∧ u'.t = u.t ∧ u'.work = u.work ∧ u'.w = u.w

/-- Two states of the MEXP unit that differ in the operands and RESULT at most. -/
def MexpUnit.SameRun (u u' : MexpUnit) : Prop := u'.phase = u.phase ∧ u'.m = u.m ∧ u'.b = u.b ∧ u'.e = u.e ∧ u'.r = u.r

/-- A stored write to H or MSG leaves the run of the unit and every other word of the window. -/
theorem stored_shaInput_frame {u : ShaUnit} {v : Word} (h : ShaInput off) (hi : shaBusy s = false)
    (hw : busAccess (Txn.memWrite off 4 v) s = .next (s.setSha u)) :
    s.sha.SameRun u ∧ ∀ off', Aligned off' → off' ≠ off → readReg (s.setSha u) off' = readReg s off' := by
  have hreg {off' : Offset} (ha' : Aligned off') (hne : off' ≠ off) (hr : registerAt s.nw off ≠ .reserved) :
      registerAt s.nw off ≠ registerAt s.nw off' := fun heq => hne (offset_eq_of_registerAt_eq h.1 ha' heq hr).symm
  rw [busAccess_memWrite v s h.1] at hw
  obtain ⟨k, hr⟩ | ⟨j, hr⟩ := registerAt_shaInput s.nw h <;>
    simp only [writeReg, hr, writeSha_of_idle _ hi, Host.Outcome.next.injEq] at hw <;>
    cases congrArg State.sha hw
  · refine ⟨⟨rfl, rfl, rfl, rfl⟩, fun off' ha' hne => readReg_setSha rfl rfl (fun k' hr' => ?_) fun _ _ => rfl⟩
    have hk : k.val ≠ k'.val := fun heq => hreg ha' hne (by simp [hr]) (by rw [hr, hr', Fin.ext heq])
    exact Vector.getElem_set_ne k.isLt k'.isLt hk
  · refine ⟨⟨rfl, rfl, rfl, rfl⟩, fun off' ha' hne => readReg_setSha rfl rfl (fun _ _ => rfl) fun j' hr' => ?_⟩
    have hj : j.val ≠ j'.val := fun heq => hreg ha' hne (by simp [hr]) (by rw [hr, hr', Fin.ext heq])
    exact Vector.getElem_set_ne j.isLt j'.isLt hj

/-- A stored write to a word of OPA, OPB or MOD leaves the run of the unit and every other word of the window. -/
theorem stored_mexpInput_frame {u : MexpUnit} {v : Word} (hn : s.nw ≤ 64) (h : MexpInput s.nw off) (hi : mexpBusy s = false)
    (hw : busAccess (Txn.memWrite off 4 v) s = .next (s.setMexp u)) :
    s.mexp.SameRun u ∧ ∀ off', Aligned off' → off' ≠ off → readReg (s.setMexp u) off' = readReg s off' := by
  have hreg {off' : Offset} (ha' : Aligned off') (hne : off' ≠ off) (hr : registerAt s.nw off ≠ .reserved) :
      registerAt s.nw off ≠ registerAt s.nw off' := fun heq => hne (offset_eq_of_registerAt_eq h.1 ha' heq hr).symm
  rw [busAccess_memWrite v s h.1] at hw
  obtain ⟨i, -, hr | hr | hr⟩ := registerAt_mexpInput hn h <;>
    simp only [writeReg, hr, writeMexp_of_idle _ hi, Host.Outcome.next.injEq] at hw <;>
    cases congrArg State.mexp hw <;>
    refine ⟨⟨rfl, rfl, rfl, rfl, rfl⟩, fun off' ha' hne => readReg_setMexp rfl ?_ ?_ ?_ fun _ _ => rfl⟩
  case inl.refl.refine_1 | inr.inl.refl.refine_2 | inr.inr.refl.refine_3 =>
    intro i' hr'
    exact operandWord_set_ne v fun heq => hreg ha' hne (by simp [hr]) (by rw [hr, hr', heq])
  all_goals exact fun _ _ => rfl

end Sys2Proof.Machine
end

section
/-! SUPPORT. A second write of the same word (20_memory.md R66, 60_exceptions.md R161). -/

namespace Sys2Proof.Machine

variable {s : State}

/-- A second BlockError of the same code leaves what the first left. -/
theorem raiseBlockError_idem (c : ErrCode) (s : State) : raiseBlockError c (raiseBlockError c s) = raiseBlockError c s := rfl

theorem statusW1c_idem (v : Word) (s : State) : statusW1c v (statusW1c v s) = statusW1c v s := by
  simp only [statusW1c, State.setBiu, Bool.and_assoc, Bool.and_self]
  split_ifs <;> rfl

theorem writeIrqEn_idem (v : Word) (s : State) : writeIrqEn v (writeIrqEn v s) = writeIrqEn v s := rfl

/-- A store into an input register of the SHA1 unit, said by what it makes of the unit. -/
theorem writeSha_idem {f : ShaUnit → ShaUnit} (hf : ∀ u, f (f u) = f u) (hp : ∀ u, (f u).phase = u.phase) :
    writeSha (f (writeSha (f s.sha) s).sha) (writeSha (f s.sha) s) = writeSha (f s.sha) s := by
  cases hb : shaBusy s with
  | true => rw [writeSha_of_busy _ hb, writeSha_of_busy _ (s := raiseBlockError .shaBusy s) hb, raiseBlockError_idem]
  | false =>
    have hb' : shaBusy (s.setSha (f s.sha)) = false := shaBusy_eq_false.mpr ((hp s.sha).trans (shaBusy_eq_false.mp hb))
    rw [writeSha_of_idle _ hb, writeSha_of_idle _ hb', State.setSha_sha, hf]
    rfl

/-- A store into an operand, said by what it makes of the unit. -/
theorem writeMexp_idem {f : MexpUnit → MexpUnit} (hf : ∀ u, f (f u) = f u) (hp : ∀ u, (f u).phase = u.phase) :
    writeMexp (f (writeMexp (f s.mexp) s).mexp) (writeMexp (f s.mexp) s) = writeMexp (f s.mexp) s := by
  cases hb : mexpBusy s with
  | true => rw [writeMexp_of_busy _ hb, writeMexp_of_busy _ (s := raiseBlockError .mexpBusy s) hb, raiseBlockError_idem]
  | false =>
    have hb' : mexpBusy (s.setMexp (f s.mexp)) = false := mexpBusy_eq_false.mpr ((hp s.mexp).trans (mexpBusy_eq_false.mp hb))
    rw [writeMexp_of_idle _ hb, writeMexp_of_idle _ hb', State.setMexp_mexp, hf]
    rfl

/-- Every register but CMD holds after a second write of a word what it held after the first (R66, R161). -/
theorem writeReg_idem {off : Offset} {v : Word} {t : State} (ha : off.toNat % 4 = 0) (hoff : off ≠ offCmd)
    (h : writeReg off v s = .next t) : writeReg off v t = .next t := by
  have hn : t.nw = s.nw := by
    obtain ⟨hn, -⟩ := (writeReg_block h).frame
    exact hn
  have hcmd := registerAt_offset (nw := s.nw) ha
  cases hr : registerAt s.nw off <;> rw [hr] at hcmd <;> simp only [writeReg, hr] at h <;>
    simp only [writeReg, hn, hr]
  case cmd => exact absurd hcmd hoff
  case status => cases h; rw [statusW1c_idem]
  case irqEn => cases h; rw [writeIrqEn_idem]
  case h k =>
    cases h
    exact congrArg Host.Outcome.next (writeSha_idem (f := fun u => { u with h := u.h.set k.val v })
      (fun u => by rw [Vector.set_set]) fun _ => rfl)
  case msg j =>
    cases h
    exact congrArg Host.Outcome.next (writeSha_idem (f := fun u => { u with msg := u.msg.set j.val v })
      (fun u => by rw [Vector.set_set]) fun _ => rfl)
  case opa i =>
    cases h
    exact congrArg Host.Outcome.next (writeMexp_idem (f := fun u => { u with opa := u.opa.set i v })
      (fun u => by rw [List.set_set]) fun _ => rfl)
  case opb i =>
    cases h
    exact congrArg Host.Outcome.next (writeMexp_idem (f := fun u => { u with opb := u.opb.set i v })
      (fun u => by rw [List.set_set]) fun _ => rfl)
  case mod i =>
    cases h
    exact congrArg Host.Outcome.next (writeMexp_idem (f := fun u => { u with mod := u.mod.set i v })
      (fun u => by rw [List.set_set]) fun _ => rfl)

end Sys2Proof.Machine
end

section
/-! The statements about the register window: reads, the registers that a write does not change, and the input registers
(10_state.md R25 to R37, 20_memory.md R66, 30_encoding.md R81). -/

namespace Sys2Proof.Machine

open Sys2Proof.Safety

/-- A flag with write 1 to clear, as a case split over the bit written (R29). -/
theorem and_not_eq_ite (b c : Bool) : (b && !c) = if c then false else b := by
  cases c <;> simp

/-- Settles O42: the next state is `statusW1c`'s, bit by bit. -/
theorem statusWriteClearsWhatItNames : Obligations.StatusWriteClearsWhatItNames :=
  fun s v => ⟨_, busAccess_write_offStatus s v, rfl, rfl, and_not_eq_ite _ _, and_not_eq_ite _ _, and_not_eq_ite _ _, rfl⟩

theorem operandWord_eq_some {ws : List Word} {i : Nat} (hi : i < ws.length) : ws[i]? = some (operandWord ws i) := by
  simp [operandWord, hi]

/-- Settles O46: a read latches what the register map gives, and at each range of the map that is the word of its register. -/
theorem readsChangeNothing : Obligations.ReadsChangeNothing := by
  refine ⟨fun s _ ha => busAccess_memRead s ha, fun s off => ⟨fun k hk => ?_, fun j hj => ?_, fun hp i hi => ?_⟩⟩
  · simp only [readReg, registerAt_h s.nw off k hk, Vector.get_eq_getElem]
  · simp only [readReg, registerAt_msg s.nw off j hj, Vector.get_eq_getElem]
  · obtain ⟨-, hn, hopa, hopb, hmod, hresult⟩ := hp
    refine ⟨fun ho => ?_, fun ho => ?_, fun ho => ?_, fun ho => ?_⟩
    · simp only [readReg, registerAt_opa s.nw off i hi ho, operandWord_eq_some (hopa ▸ hi)]
    · simp only [readReg, registerAt_opb s.nw off i hn hi ho, operandWord_eq_some (hopb ▸ hi)]
    · simp only [readReg, registerAt_mod s.nw off i hn hi ho, operandWord_eq_some (hmod ▸ hi)]
    · simp only [readReg, registerAt_result s.nw off i hn hi ho, operandWord_eq_some (hresult ▸ hi)]

/-- The register at an offset of RESULT (R25). -/
theorem registerAt_resultWord {nw : Nat} (hn : nw ≤ 64) {off : Offset} (h : ResultWord nw off) :
    registerAt nw off = .result ((off.toNat - 0x400) / 4) := by
  obtain ⟨ha, hlo, hhi⟩ := h
  unfold Aligned at ha
  exact registerAt_result nw off _ hn (by omega) (by omega)

/-- PARAM is NW, modulo the byte it stands in (R27). -/
theorem paramWord_toNat (s : State) : (paramWord s).toNat = s.nw % 256 := by
  rw [paramWord, BitVec.toNat_setWidth, BitVec.toNat_ofNat]
  omega

/-- Settles O47: each register is the map's at its offset, and the map ignores writes to RESULT. -/
theorem readOnlyRegisters : Obligations.ReadOnlyRegisters := by
  refine ⟨fun s => ⟨rfl, rfl, ?_, fun hp => ?_⟩, fun s v => ⟨busAccess_memWrite v s (by decide), busAccess_write_offParam s v,
    busAccess_write_offCmd s v⟩, fun s v off hp hoff => ?_⟩
  · change (paramWord s).extractLsb' 8 24 = 0
    apply BitVec.eq_of_toNat_eq
    rw [BitVec.extractLsb'_toNat, paramWord_toNat, Nat.shiftRight_eq_div_pow, Nat.div_eq_of_lt (Nat.mod_lt _ (by decide))]
    rfl
  · obtain ⟨-, hn, -⟩ := hp
    change ((paramWord s).extractLsb' 0 8).toNat = s.nw
    rw [BitVec.extractLsb'_toNat, paramWord_toNat, Nat.shiftRight_zero]
    omega
  · obtain ⟨-, hn, -⟩ := hp
    rw [busAccess_memWrite v s hoff.1]
    simp only [writeReg, registerAt_resultWord hn hoff]

/-- Settles O49: the stored word is read back, and every other word offset names another register. -/
theorem inputWritesReadBackAndLeaveTheRest : Obligations.InputWritesReadBackAndLeaveTheRest := by
  rintro s off v hp (⟨hoff, hi⟩ | ⟨hoff, hi⟩)
  · obtain ⟨u, hw, hback⟩ := busAccess_write_shaInput (s := s) v hoff
    rw [writeSha_of_idle u hi] at hw
    obtain ⟨⟨hphase, ht, hwork, hwindow⟩, hrest⟩ := stored_shaInput_frame hoff hi hw
    exact ⟨_, hw, hback, hrest, rfl, rfl, rfl, rfl, hphase, ht, hwork, hwindow, rfl, rfl, rfl, rfl, rfl⟩
  · obtain ⟨u, hw, hback⟩ := busAccess_write_mexpInput v hp hoff
    obtain ⟨-, hn, -⟩ := hp
    rw [writeMexp_of_idle u hi] at hw
    obtain ⟨⟨hphase, hm, hb, he, hr⟩, hrest⟩ := stored_mexpInput_frame hn hoff hi hw
    exact ⟨_, hw, hback, hrest, rfl, rfl, rfl, rfl, rfl, rfl, rfl, rfl, hphase, hm, hb, he, hr⟩

/-- Settles O51: a stored write stores the same word again, and a second rejection keeps the first error. -/
theorem repeatedWritesAreIdempotent : Obligations.RepeatedWritesAreIdempotent := by
  intro s t off v hoff h
  by_cases ha : off.toNat % 4 = 0
  · rw [busAccess_memWrite v _ ha] at h ⊢
    exact writeReg_idem ha hoff h
  · cases (busAccess_not_admitted s (not_admitted_iff.mpr (.inr ha))).symm.trans h

/-- Settles O53: BLOCK_BASE is a multiple of 4096, so the low 12 bits of an address are those of its offset. -/
theorem busAddressesGiveTheirOffset : Obligations.BusAddressesGiveTheirOffset := by
  refine ⟨fun off => ?_, fun addr h => ?_, Nat.mul_mod_right _ _⟩
  · rw [offsetOfBusAddress, busAddress, Nat.add_sub_cancel_left, BitVec.ofNat_toNat, BitVec.setWidth_eq]
  · rw [offsetOfBusAddress, BitVec.toNat_ofNat]
    unfold Config.blockBase at *
    omega

end Sys2Proof.Machine
end

section
/-! SUPPORT. What a step of a unit leaves of the BIU and of the input registers (41_modexp.md R114, R115; 42_sha1.md R141,
R143). -/

namespace Sys2Proof.Machine

/-- A SHA1 unit step touches no bit of the BIU but SHA_DONE. -/
theorem sha1Step_biu (s : State) : (sha1Step s).biu = { s.biu with shaDone := (sha1Step s).biu.shaDone } := by
  unfold sha1Step
  split
  · rfl
  · split_ifs <;> rfl

/-- A MEXP unit step touches no bit of the BIU but MEXP_DONE. -/
theorem mexpStep_biu (s : State) : (mexpStep s).biu = { s.biu with mexpDone := (mexpStep s).biu.mexpDone } := by
  unfold mexpStep
  split
  · rfl
  · split_ifs <;> rfl
  · rfl

@[simp] theorem mexpStep_sha (s : State) : (mexpStep s).sha = s.sha := by
  unfold mexpStep
  split
  · rfl
  · split_ifs <;> rfl
  · rfl

/-- Only the completion of a block writes H (R143). -/
theorem sha1Step_h (s : State) : (sha1Step s).sha.h = s.sha.h ∨ (shaBusy s = true ∧ s.sha.t.val = 80) := by
  cases hp : s.sha.phase with
  | idle => exact .inl (by rw [sha1Step_idle hp])
  | run =>
    by_cases ht : s.sha.t.val < 80
    · exact .inl (by rw [sha1Step_round hp ht]; rfl)
    · exact .inr ⟨shaBusy_eq_true.mpr hp, by have := s.sha.t.isLt; omega⟩

end Sys2Proof.Machine
end

section
/-! SUPPORT. What a write can do to the BIU and to the input registers of the SHA1 unit, said once for the rules over all agents
(10_state.md R31, R32; 60_exceptions.md R161, R165, R167). -/

namespace Sys2Proof.Machine

variable {s t : State} {i : Instr} {off : Offset} {v : Word}

/-- A command word is illegal, or it is the encoding of the command it runs (R83, R100). -/
theorem command_cases (h : command v s = .next t) :
    t = raiseBlockError .illegalCmd s ∨ ∃ i, v = encode i ∧ exec i s = .next t := by
  unfold command at h
  split at h
  · cases h
    exact .inl rfl
  · next i hd => exact .inr ⟨i, eq_encode_of_decode hd, h⟩

/-- The values of the BIU that a write can leave in the state `s`: no write sets a DONE bit. -/
inductive BiuWrite (s : State) : Biu → Prop where
  | same : BiuWrite s s.biu
  | raise (c : ErrCode) : BiuWrite s (raiseBlockError c s).biu
  | reset : BiuWrite s Biu.reset
  | clearShaDone : BiuWrite s { s.biu with shaDone := false }
  | clearMexpDone : BiuWrite s { s.biu with mexpDone := false }
  | statusW1c (v : Word) : BiuWrite s (statusW1c v s).biu
  | irqEn (v : Word) : BiuWrite s (writeIrqEn v s).biu

theorem shaBusyCheck_biuWrite {u : State} (hu : BiuWrite s u.biu)
    (h : (if shaBusy s then .next (raiseBlockError .shaBusy s) else .next u : Outcome) = .next t) : BiuWrite s t.biu := by
  split_ifs at h <;> cases h
  · exact .raise _
  · exact hu

theorem mexpAcceptOr_biuWrite {accept : State → State} (h : BiuWrite s (accept s).biu) :
    BiuWrite s (mexpAcceptOr accept s).biu := by
  unfold mexpAcceptOr
  split_ifs
  · exact .raise _
  · exact .raise _
  · exact h

theorem exec_biuWrite (h : exec i s = .next t) : BiuWrite s t.biu := by
  cases i with
  | nop => cases h; exact .same
  | srst => cases h; exact .reset
  | sha1Init => exact shaBusyCheck_biuWrite (u := sha1Init s) .same h
  | sha1Block => exact shaBusyCheck_biuWrite (u := sha1Accept s) .clearShaDone h
  | sha1Abort => cases h; rw [sha1Abort_biu]; exact .same
  | mexpExp => cases h; exact mexpAcceptOr_biuWrite .clearMexpDone
  | mexpMul => cases h; exact mexpAcceptOr_biuWrite .clearMexpDone
  | mexpAbort => cases h; rw [mexpAbort_biu]; exact .same

theorem command_biuWrite (h : command v s = .next t) : BiuWrite s t.biu := by
  obtain rfl | ⟨i, -, hi⟩ := command_cases h
  · exact .raise _
  · exact exec_biuWrite hi

theorem writeSha_biuWrite (u : ShaUnit) (s : State) : BiuWrite s (writeSha u s).biu := by
  obtain ⟨-, h⟩ | ⟨-, h⟩ := writeSha_eq u s <;> rw [h]
  · exact .raise _
  · exact .same

theorem writeMexp_biuWrite (u : MexpUnit) (s : State) : BiuWrite s (writeMexp u s).biu := by
  obtain ⟨-, h⟩ | ⟨-, h⟩ := writeMexp_eq u s <;> rw [h]
  · exact .raise _
  · exact .same

theorem writeReg_biuWrite (ha : off.toNat % 4 = 0) (h : writeReg off v s = .next t) : BiuWrite s t.biu := by
  obtain rfl | ⟨-, hc⟩ | ⟨-, rfl⟩ | ⟨-, rfl⟩ | ⟨k, -, rfl⟩ | ⟨j, -, rfl⟩ | ⟨i, rfl | rfl | rfl⟩ := writeReg_cases ha h
  · exact .same
  · exact command_biuWrite hc
  · exact .statusW1c v
  · exact .irqEn v
  · exact writeSha_biuWrite _ s
  · exact writeSha_biuWrite _ s
  · exact writeMexp_biuWrite _ s
  · exact writeMexp_biuWrite _ s
  · exact writeMexp_biuWrite _ s

theorem BiuWrite.shaDone_of_shaDone {x : Biu} (h : BiuWrite s x) (hx : x.shaDone = true) : s.biu.shaDone = true := by
  cases h with
  | statusW1c v => exact Bool.and_elim_left hx
  | reset | clearShaDone => cases hx
  | _ => exact hx

theorem BiuWrite.mexpDone_of_mexpDone {x : Biu} (h : BiuWrite s x) (hx : x.mexpDone = true) : s.biu.mexpDone = true := by
  cases h with
  | statusW1c v => exact Bool.and_elim_left hx
  | reset | clearMexpDone => cases hx
  | _ => exact hx

/-- A write that sets ERR is a raise, which leaves the DONE bits (R161). -/
theorem BiuWrite.done_of_err {x : Biu} (h : BiuWrite s x) (hs : s.biu.err = false) (hx : x.err = true) :
    x.shaDone = s.biu.shaDone ∧ x.mexpDone = s.biu.mexpDone := by
  cases h with
  | raise c => exact ⟨rfl, rfl⟩
  | statusW1c v => cases hs.symm.trans (Bool.and_elim_left hx)
  | reset => cases hx
  | _ => cases hs.symm.trans hx

/-- A write changes IRQ_EN only as SRST or as a write to it (R30, R167). -/
theorem writeReg_irqEn (ha : off.toNat % 4 = 0) (h : writeReg off v s = .next t) :
    t.biu.irqEn = s.biu.irqEn ∨ (off = offCmd ∧ v = encode .srst) ∨ (off = offIrqEn ∧ t.biu.irqEn = v.extractLsb' 0 3) := by
  have sha (u : ShaUnit) : (writeSha u s).biu.irqEn = s.biu.irqEn := by
    obtain ⟨-, h⟩ | ⟨-, h⟩ := writeSha_eq u s <;> rw [h] <;> rfl
  have mexp (u : MexpUnit) : (writeMexp u s).biu.irqEn = s.biu.irqEn := by
    obtain ⟨-, h⟩ | ⟨-, h⟩ := writeMexp_eq u s <;> rw [h] <;> rfl
  obtain rfl | ⟨hoff, hc⟩ | ⟨-, rfl⟩ | ⟨hoff, rfl⟩ | ⟨k, -, rfl⟩ | ⟨j, -, rfl⟩ | ⟨i, rfl | rfl | rfl⟩ := writeReg_cases ha h
  · exact .inl rfl
  · obtain rfl | ⟨i, hv, hi⟩ := command_cases hc
    · exact .inl rfl
    · by_cases hsrst : i = .srst
      · exact .inr (.inl ⟨hoff, hsrst ▸ hv⟩)
      · obtain ⟨hirq, -⟩ := exec_registers_frame hsrst hi
        exact .inl hirq
  · exact .inl rfl
  · exact .inr (.inr ⟨hoff, rfl⟩)
  · exact .inl (sha _)
  · exact .inl (sha _)
  · exact .inl (mexp _)
  · exact .inl (mexp _)
  · exact .inl (mexp _)

/-- Of the commands only SRST and SHA1.INIT, this of the idle unit, write H (R31, R144). -/
theorem exec_h (h : exec i s = .next t) :
    t.sha.h = s.sha.h ∨ i = .srst ∨ (i = .sha1Init ∧ shaBusy s = false) := by
  obtain rfl | hsrst | hsha | hmexp := command_unit_cases i
  · cases h
    exact .inl rfl
  · exact .inr (.inl hsrst)
  · obtain rfl | rfl | rfl := hsha
    · cases hp : s.sha.phase with
      | idle => exact .inr (.inr ⟨rfl, shaBusy_eq_false.mpr hp⟩)
      | run =>
        cases (exec_sha1Init_of_busy hp).symm.trans h
        exact .inl rfl
    · cases hp : s.sha.phase with
      | idle =>
        cases (exec_sha1Block_of_idle hp).symm.trans h
        exact .inl rfl
      | run =>
        cases (exec_sha1Block_of_busy hp).symm.trans h
        exact .inl rfl
    · cases h
      unfold sha1Abort
      split <;> exact .inl rfl
  · obtain ⟨hs, -⟩ := exec_mexpCommand_frame hmexp h
    exact .inl (by rw [hs])

theorem writeMexp_sha (u : MexpUnit) (s : State) : (writeMexp u s).sha = s.sha := by
  obtain ⟨-, h⟩ | ⟨-, h⟩ := writeMexp_eq u s <;> rw [h] <;> rfl

/-- A write changes H only as SRST, or with the unit idle as SHA1.INIT or as a write to one word of it (R31, R35). -/
theorem writeReg_h (ha : off.toNat % 4 = 0) (h : writeReg off v s = .next t) :
    t.sha.h = s.sha.h ∨ (off = offCmd ∧ v = encode .srst) ∨ (shaBusy s = false ∧
      ((off = offCmd ∧ v = encode .sha1Init) ∨ ∃ k : Fin 5, off = offH k.val ∧ t.sha.h = s.sha.h.set k.val v)) := by
  obtain rfl | ⟨hoff, hc⟩ | ⟨-, rfl⟩ | ⟨-, rfl⟩ | ⟨k, hoff, rfl⟩ | ⟨j, -, rfl⟩ | ⟨i, rfl | rfl | rfl⟩ := writeReg_cases ha h
  · exact .inl rfl
  · obtain rfl | ⟨i, rfl, hi⟩ := command_cases hc
    · exact .inl rfl
    · obtain hh | rfl | ⟨rfl, hidle⟩ := exec_h hi
      · exact .inl hh
      · exact .inr (.inl ⟨hoff, rfl⟩)
      · exact .inr (.inr ⟨hidle, .inl ⟨hoff, rfl⟩⟩)
  · exact .inl rfl
  · exact .inl rfl
  · obtain ⟨-, hw⟩ | ⟨hidle, hw⟩ := writeSha_eq { s.sha with h := s.sha.h.set k.val v } s <;> rw [hw]
    · exact .inl rfl
    · exact .inr (.inr ⟨hidle, .inr ⟨k, hoff, rfl⟩⟩)
  · obtain ⟨-, hw⟩ | ⟨-, hw⟩ := writeSha_eq { s.sha with msg := s.sha.msg.set j.val v } s <;> rw [hw] <;> exact .inl rfl
  · exact .inl (by rw [writeMexp_sha])
  · exact .inl (by rw [writeMexp_sha])
  · exact .inl (by rw [writeMexp_sha])

/-- A write changes MSG only as SRST, or with the unit idle as a write to one word of it (R32, R35). -/
theorem writeReg_msg (ha : off.toNat % 4 = 0) (h : writeReg off v s = .next t) :
    t.sha.msg = s.sha.msg ∨ (off = offCmd ∧ v = encode .srst) ∨ (shaBusy s = false ∧
      ∃ j : Fin 16, off = offMsg j.val ∧ t.sha.msg = s.sha.msg.set j.val v) := by
  obtain rfl | ⟨hoff, hc⟩ | ⟨-, rfl⟩ | ⟨-, rfl⟩ | ⟨k, -, rfl⟩ | ⟨j, hoff, rfl⟩ | ⟨i, rfl | rfl | rfl⟩ := writeReg_cases ha h
  · exact .inl rfl
  · obtain rfl | ⟨i, rfl, hi⟩ := command_cases hc
    · exact .inl rfl
    · by_cases hsrst : i = .srst
      · exact .inr (.inl ⟨hoff, hsrst ▸ rfl⟩)
      · obtain ⟨-, hmsg, -⟩ := exec_registers_frame hsrst hi
        exact .inl hmsg
  · exact .inl rfl
  · exact .inl rfl
  · obtain ⟨-, hw⟩ | ⟨-, hw⟩ := writeSha_eq { s.sha with h := s.sha.h.set k.val v } s <;> rw [hw] <;> exact .inl rfl
  · obtain ⟨-, hw⟩ | ⟨hidle, hw⟩ := writeSha_eq { s.sha with msg := s.sha.msg.set j.val v } s <;> rw [hw]
    · exact .inl rfl
    · exact .inr (.inr ⟨hidle, j, hoff, rfl⟩)
  · exact .inl (by rw [writeMexp_sha])
  · exact .inl (by rw [writeMexp_sha])
  · exact .inl (by rw [writeMexp_sha])

end Sys2Proof.Machine
end

section
/-! SUPPORT. What a step leaves of a unit that is busy before and after it (41_modexp.md R114; 42_sha1.md R141, R142). -/

namespace Sys2Proof.Machine

variable {s t : State}

/-- While the SHA1 unit stays busy, a step leaves it or is a round of it. -/
theorem BlockStep.sha_of_busy (h : BlockStep s t) (hs : shaBusy s = true) (ht : shaBusy t = true) :
    t.sha = s.sha ∨ ∃ hlt : s.sha.t.val < 80, t.sha = Machine.sha1Round s.sha hlt := by
  have hrun := shaBusy_eq_true.mp hs
  cases h with
  | h hi | msg hi | sha1Init hi | sha1Accept hi => cases hi.symm.trans hrun
  | reset | sha1Abort | sha1Complete => cases ht
  | sha1Round _ hlt => exact .inr ⟨hlt, rfl⟩
  | _ => exact .inl rfl

/-- While the MEXP unit stays busy, a step leaves it or does one exponent bit. -/
theorem BlockStep.mexp_of_busy (h : BlockStep s t) (hs : mexpBusy s = true) (ht : mexpBusy t = true) :
    t.mexp = s.mexp ∨ (s.mexp.e ≠ 0 ∧ t.mexp = Machine.mexpBit s.mexp) := by
  have hbusy := mexpBusy_eq_true.mp hs
  cases h with
  | opa hi | opb hi | mod hi | mexpAcceptExp hi | mexpAcceptMul hi => exact absurd hi hbusy
  | reset | mexpAbort | mexpComplete => cases ht
  | mexpBit _ he => exact .inr ⟨he, rfl⟩
  | _ => exact .inl rfl

/-- A step that leaves ERR set leaves ERRCODE: a raise keeps the first error, and a write to STATUS clears both or neither. -/
theorem BlockStep.errCode_of_err (h : BlockStep s t) (hs : s.biu.err = true) (ht : t.biu.err = true) :
    t.biu.errCode = s.biu.errCode := by
  cases h with
  | raise c => exact raiseBlockError_errCode_of_set hs
  | reset => cases ht
  | statusW1c v =>
    have hv : (!v.getLsbD 4) = true := Bool.and_elim_right ht
    exact if_neg (by simpa using hv)
  | _ => rfl

end Sys2Proof.Machine
end

section
/-! The statements about what changes in no step but the listed ones (10_state.md, 42_sha1.md, 60_exceptions.md). -/

namespace Sys2Proof.Machine

open Sys2Proof.Safety

/-- Settles O25: a case split over what a step of an agent can do to the block. -/
theorem chainingValueChangesOnlyAsListed : Obligations.ChainingValueChangesOnlyAsListed := by
  intro a s t h
  obtain ⟨-, -, hsha, -⟩ | ⟨ha, rfl⟩ | ⟨-, rfl⟩ | ⟨ha, -⟩ | ⟨off, v, u, hw, hoff, hu, -, -, hsha, -⟩ := agentStep_cases h
  · exact ⟨fun hne => absurd (by rw [hsha]) hne, fun hne => absurd (by rw [hsha]) hne⟩
  · exact ⟨fun hne => .inl ⟨ha, (sha1Step_h s).resolve_left hne⟩, fun hne => absurd (sha1Step_msg s) hne⟩
  · exact ⟨fun hne => absurd (by rw [mexpStep_sha]) hne, fun hne => absurd (by rw [mexpStep_sha]) hne⟩
  · exact ⟨fun _ => .inr (.inl ha), fun _ => .inl ha⟩
  · rw [← hsha]
    refine ⟨fun hne => ?_, fun hne => ?_⟩
    · obtain ⟨rfl, rfl⟩ | ⟨hidle, ⟨rfl, rfl⟩ | ⟨k, rfl, hk⟩⟩ := (writeReg_h hoff hu).resolve_left hne
      · exact .inr (.inr (.inl hw))
      · exact .inr (.inr (.inr ⟨hidle, .inl hw⟩))
      · exact .inr (.inr (.inr ⟨hidle, .inr ⟨k, v, hw, hk⟩⟩))
    · obtain ⟨rfl, rfl⟩ | ⟨hidle, j, rfl, hj⟩ := (writeReg_msg hoff hu).resolve_left hne
      · exact .inr (.inl hw)
      · exact .inr (.inr ⟨hidle, j, v, hw, hj⟩)

/-- Settles O38: a unit step sets only its own DONE bit, and no write sets one. -/
theorem completionAndErrorNeverMeet : Obligations.CompletionAndErrorNeverMeet := by
  intro a s t h
  have noRise {b : Bool} {p : Prop} (h0 : b = false) (h1 : b = true) : p := absurd (h0.symm.trans h1) (by decide)
  obtain ⟨-, hbiu, -⟩ | ⟨ha, rfl⟩ | ⟨ha, rfl⟩ | ⟨-, rfl⟩ | ⟨off, v, u, hw, hoff, hu, -, hbiu, -⟩ := agentStep_cases h
  · rw [← hbiu]
    exact ⟨noRise, noRise, noRise⟩
  · rw [sha1Step_biu]
    exact ⟨fun _ _ => ⟨ha, rfl, rfl⟩, noRise, noRise⟩
  · rw [mexpStep_biu]
    exact ⟨noRise, fun _ _ => ⟨ha, rfl, rfl⟩, noRise⟩
  · exact ⟨fun _ => (nomatch ·), fun _ => (nomatch ·), fun _ => (nomatch ·)⟩
  · have hb := writeReg_biuWrite hoff hu
    rw [← hbiu]
    exact ⟨fun h0 h1 => noRise h0 (hb.shaDone_of_shaDone h1), fun h0 h1 => noRise h0 (hb.mexpDone_of_mexpDone h1),
      fun h0 h1 => ⟨⟨off, v, hw⟩, hb.done_of_err h0 h1⟩⟩

/-- Settles O39: each change of the block leaves ERRCODE, or clears ERR, or finds ERR clear. -/
theorem errCodeStaysWhileErrStays : Obligations.ErrCodeStaysWhileErrStays := by
  intro s t h hs ht
  obtain ⟨u, hu, -, hbiu, -⟩ := step_block h
  rw [← hbiu] at ht ⊢
  rw [← chosen_biu s] at hs ⊢
  exact hu.errCode_of_err hs ht

/-- Settles O40: no unit step touches IRQ_EN, and of the writes only SRST and a write to it. -/
theorem interruptEnablesChangeOnlyAsListed : Obligations.InterruptEnablesChangeOnlyAsListed := by
  intro a s t h hne
  obtain ⟨-, hbiu, -⟩ | ⟨-, rfl⟩ | ⟨-, rfl⟩ | ⟨ha, -⟩ | ⟨off, v, u, hw, hoff, hu, -, hbiu, -⟩ := agentStep_cases h
  · exact absurd (by rw [hbiu]) hne
  · exact absurd (by rw [sha1Step_biu]) hne
  · exact absurd (by rw [mexpStep_biu]) hne
  · exact .inl ha
  · rw [← hbiu] at hne ⊢
    obtain ⟨rfl, rfl⟩ | ⟨rfl, hv⟩ := (writeReg_irqEn hoff hu).resolve_left hne
    · exact .inr (.inl hw)
    · exact .inr (.inr ⟨v, hw, hv⟩)

end Sys2Proof.Machine
end

section
/-! SUPPORT. A unit that is busy before and after a step of an agent (10_state.md R20, R21), and a rank that falls whenever the
unit itself steps. -/

namespace Sys2Proof.Machine

open Sys2Proof.Safety

variable {a : Agent} {s t : State}

theorem agentStep_sha_of_busy (h : agentStep a s = .next t) (hs : shaBusy s = true) (ht : shaBusy t = true) :
    t.sha = s.sha ∨ ∃ hlt : s.sha.t.val < 80, t.sha = sha1Round s.sha hlt := by
  obtain ⟨u, hu, -, -, hsha, -⟩ := agentStep_block h
  rw [← hsha]
  refine hu.sha_of_busy hs ?_
  rwa [shaBusy, hsha]

theorem agentStep_mexp_of_busy (h : agentStep a s = .next t) (hs : mexpBusy s = true) (ht : mexpBusy t = true) :
    t.mexp = s.mexp ∨ (s.mexp.e ≠ 0 ∧ t.mexp = mexpBit s.mexp) := by
  obtain ⟨u, hu, -, -, -, hmexp⟩ := agentStep_block h
  rw [← hmexp]
  refine hu.mexp_of_busy hs ?_
  rwa [mexpBusy, hmexp]

/-- u.t does not go back while the SHA1 unit stays busy. -/
theorem agentStep_round_le (h : agentStep a s = .next t) (hs : shaBusy s = true) (ht : shaBusy t = true) :
    s.sha.t.val ≤ t.sha.t.val := by
  obtain heq | ⟨_, heq⟩ := agentStep_sha_of_busy h hs ht <;> rw [heq]
  exact Nat.le_succ _

/-- A step of the SHA1 unit that does not end its run is a round. -/
theorem sha1Step_roundsLeft_lt (hs : shaBusy s = true) (ht : shaBusy (sha1Step s) = true) :
    80 - (sha1Step s).sha.t.val < 80 - s.sha.t.val := by
  have hr := shaBusy_eq_true.mp hs
  by_cases hlt : s.sha.t.val < 80
  · rw [sha1Step_round hr hlt]
    exact Nat.sub_lt_sub_left hlt (Nat.lt_succ_self _)
  · have h80 : s.sha.t.val = 80 := by have := s.sha.t.isLt; omega
    rw [sha1Step_complete hr h80] at ht
    cases ht

/-- u.e does not grow while the MEXP unit stays busy. -/
theorem agentStep_exponent_le (h : agentStep a s = .next t) (hs : mexpBusy s = true) (ht : mexpBusy t = true) :
    t.mexp.e ≤ s.mexp.e := by
  obtain heq | ⟨-, heq⟩ := agentStep_mexp_of_busy h hs ht <;> rw [heq]
  exact Nat.div_le_self _ _

/-- A step of the MEXP unit that does not end its command does one bit of an exponent that is not 0. -/
theorem mexpStep_exponent_lt (hs : mexpBusy s = true) (ht : mexpBusy (mexpStep s) = true) :
    (mexpStep s).mexp.e < s.mexp.e := by
  by_cases hd : s.mexp.phase = .exp → s.mexp.e = 0
  · rw [mexpStep_complete (mexpBusy_eq_true.mp hs) hd] at ht
    cases ht
  · obtain ⟨hp, he⟩ := Classical.not_imp.mp hd
    rw [mexpStep_bit hp he]
    exact Nat.div_lt_self (Nat.pos_of_ne_zero he) (by decide)

/-- A unit that is fairly scheduled, and whose rank no step raises and its own steps lower, does not stay busy. -/
theorem eventually_idle {σ : Nat → Agent} {ρ : Nat → State} {busy : State → Bool} {unit : Agent} {rank : State → Nat}
    (hrun : IsRun σ ρ)
    (hle : ∀ {a s t}, agentStep a s = .next t → busy s = true → busy t = true → rank t ≤ rank s)
    (hlt : ∀ {s t}, agentStep unit s = .next t → busy s = true → busy t = true → rank t < rank s)
    (hfair : ∀ n, (∀ k, n ≤ k → busy (ρ k) = true) → ∃ k, n ≤ k ∧ σ k = unit) (n : Nat) :
    ∃ k, n ≤ k ∧ busy (ρ k) = false := by
  by_contra hno
  have hbusy (k : Nat) (hk : n ≤ k) : busy (ρ k) = true := by
    by_contra hb
    exact hno ⟨k, hk, Bool.eq_false_iff.mpr hb⟩
  have hmono (k d : Nat) (hk : n ≤ k) : rank (ρ (k + d)) ≤ rank (ρ k) := by
    induction d with
    | zero => exact le_rfl
    | succ d ih => exact (hle (hrun (k + d)) (hbusy _ (by omega)) (hbusy _ (by omega))).trans ih
  have hnone (r : Nat) : ∀ k, n ≤ k → rank (ρ k) ≠ r := by
    induction r using Nat.strong_induction_on with
    | _ r ih =>
      rintro k hk rfl
      obtain ⟨j, hkj, hj⟩ := hfair k fun i hi => hbusy i (by omega)
      obtain ⟨d, rfl⟩ := Nat.exists_eq_add_of_le hkj
      have hfall := hlt (hj ▸ hrun (k + d)) (hbusy _ (by omega)) (hbusy _ (by omega))
      exact ih _ (hfall.trans_le (hmono k d hk)) (k + d + 1) (by omega) rfl
  exact hnone _ n le_rfl rfl

end Sys2Proof.Machine
end

section
/-! The statements about busy units: what a step leaves of them, and that they finish (10_state.md R21, R44; 42_sha1.md R142). -/

namespace Sys2Proof.Machine

open Sys2Proof.Safety

variable {s t : State} {off : Offset}

theorem readReg_shaInput_congr (hoff : ShaInput off) (hn : t.nw = s.nw) (hh : t.sha.h = s.sha.h)
    (hm : t.sha.msg = s.sha.msg) : readReg t off = readReg s off := by
  obtain ⟨k, hr⟩ | ⟨j, hr⟩ := registerAt_shaInput s.nw hoff
  · simp only [readReg, hn, hr, hh]
  · simp only [readReg, hn, hr, hm]

/-- The part of the window from 0x100 on holds operand words and reserved space only (R25). -/
theorem registerAt_operands (nw : Nat) (h : 0x100 ≤ off.toNat) :
    (∃ i, registerAt nw off = .opa i ∨ registerAt nw off = .opb i ∨ registerAt nw off = .mod i ∨
      registerAt nw off = .result i) ∨ registerAt nw off = .reserved := by
  unfold registerAt registerAtByte
  iterate 5 rw [if_neg (by omega)]
  rw [dif_neg (by omega), dif_neg (by omega)]
  split_ifs
  · exact .inl ⟨_, .inl rfl⟩
  · exact .inl ⟨_, .inr (.inl rfl)⟩
  · exact .inl ⟨_, .inr (.inr (.inl rfl))⟩
  · exact .inl ⟨_, .inr (.inr (.inr rfl))⟩
  · exact .inr rfl

/-- A read there shows the operand files only. -/
theorem readReg_operands_congr (h : 0x100 ≤ off.toNat) (hn : t.nw = s.nw) (ha : t.mexp.opa = s.mexp.opa)
    (hb : t.mexp.opb = s.mexp.opb) (hm : t.mexp.mod = s.mexp.mod) (hres : t.mexp.result = s.mexp.result) :
    readReg t off = readReg s off := by
  obtain ⟨i, hr | hr | hr | hr⟩ | hr := registerAt_operands s.nw h
  · simp only [readReg, hn, hr, ha]
  · simp only [readReg, hn, hr, hb]
  · simp only [readReg, hn, hr, hm]
  · simp only [readReg, hn, hr, hres]
  · simp only [readReg, hn, hr]

/-- Settles O37: while a unit stays busy a step leaves it, or is a round or an exponent bit of it, which touch internal state
only; and the register map names no internal state but the phases and u.t. -/
theorem nothingPartialShowsWhileAUnitIsBusy : Obligations.NothingPartialShowsWhileAUnitIsBusy := by
  refine ⟨fun s t h => ?_, fun s work w m b e r off => ?_⟩
  · have hn := noStepChangesTheInstance s t h
    rw [step_eq] at h
    refine ⟨fun hs ht => ?_, fun hs ht => ?_⟩
    · have hs : shaBusy (chosen s) = true := by rwa [shaBusy, chosen_sha]
      have hround := agentStep_round_le h hs ht
      have hregs : t.sha.h = s.sha.h ∧ t.sha.msg = s.sha.msg := by
        rw [← chosen_sha s]
        obtain heq | ⟨_, heq⟩ := agentStep_sha_of_busy h hs ht <;> rw [heq] <;> exact ⟨rfl, rfl⟩
      obtain ⟨hh, hm⟩ := hregs
      rw [chosen_sha] at hround
      exact ⟨hh, hm, hround, statusWord_shaRound t, fun off hoff => readReg_shaInput_congr hoff hn hh hm⟩
    · have hs : mexpBusy (chosen s) = true := by rwa [mexpBusy, chosen_mexp]
      have hregs : t.mexp.opa = s.mexp.opa ∧ t.mexp.opb = s.mexp.opb ∧ t.mexp.mod = s.mexp.mod ∧
          t.mexp.result = s.mexp.result ∧ t.mexp.m = s.mexp.m := by
        obtain heq | ⟨-, heq⟩ := agentStep_mexp_of_busy h hs ht <;> rw [heq, chosen_mexp] <;> exact ⟨rfl, rfl, rfl, rfl, rfl⟩
      obtain ⟨ha, hb, hmod, hres, hm⟩ := hregs
      refine ⟨ha, hb, hmod, hres, hm, fun off hoff => readReg_operands_congr ?_ hn ha hb hmod hres⟩
      obtain ⟨-, hr⟩ | ⟨-, hr⟩ := hoff <;> omega
  · calc readReg ((s.setSha { s.sha with work := work, w := w }).setMexp { s.mexp with m := m, b := b, e := e, r := r }) off
        = readReg (s.setSha { s.sha with work := work, w := w }) off :=
          readReg_setMexp rfl (fun _ _ => rfl) (fun _ _ => rfl) (fun _ _ => rfl) fun _ _ => rfl
      _ = readReg s off := readReg_setSha rfl rfl (fun _ _ => rfl) fun _ _ => rfl

/-- Settles O30: the rounds left, and the exponent left, are ranks that fall with every step of a unit that stays busy. -/
theorem busyUnitsFinishUnderWeakFairness : Obligations.BusyUnitsFinishUnderWeakFairness := by
  rintro σ ρ hrun ⟨hsha, hmexp⟩ n
  refine ⟨eventually_idle (rank := fun s => 80 - s.sha.t.val) hrun (fun h hs ht => ?_) (fun h hs ht => ?_) hsha n,
    eventually_idle (rank := fun s => s.mexp.e) hrun agentStep_exponent_le (fun h hs ht => ?_) hmexp n⟩
  · exact Nat.sub_le_sub_left (agentStep_round_le h hs ht) 80
  · cases h
    exact sha1Step_roundsLeft_lt hs ht
  · cases h
    exact mexpStep_exponent_lt hs ht

end Sys2Proof.Machine
end

section
/-! SUPPORT. A run whose agents the schedule names (10_state.md R21), and what a unit step leaves of the machine. -/

namespace Sys2Proof.Machine

/-- An induction over the agents of the schedule: `P` speaks of the agents that have stepped and the state they led to. -/
theorem run_schedule {P : List Agent → State → Prop} {as rest : List Agent}
    (hstep : ∀ done a s l, a ∈ as → P done s →
      ∃ t, agentStep a (s.setSchedule l) = .next t ∧ t.schedule = l ∧ P (done ++ [a]) t)
    {done : List Agent} {s : State} (hs : s.schedule = as ++ rest) (hp : P done s) :
    ∃ t, Host.Core.run core as.length s = .next t ∧ t.schedule = rest ∧ P (done ++ as) t := by
  induction as generalizing done s with
  | nil => exact ⟨s, rfl, hs, (List.append_nil done).symm ▸ hp⟩
  | cons a as ih =>
    obtain ⟨t, ht, hsched, hpt⟩ := hstep done a s (as ++ rest) List.mem_cons_self hp
    obtain ⟨t', hrun, hrest, hpt'⟩ := ih (fun done b s l hb => hstep done b s l (List.mem_cons_of_mem a hb)) hsched hpt
    rw [List.append_assoc] at hpt'
    exact ⟨t', (run_cons hs ht).trans hrun, hrest, hpt'⟩

/-- The same for a schedule of one agent, by the number of its steps. -/
theorem run_replicate {P : Nat → State → Prop} {a : Agent} {k : Nat} {rest : List Agent}
    (hstep : ∀ n s l, P n s → ∃ t, agentStep a (s.setSchedule l) = .next t ∧ t.schedule = l ∧ P (n + 1) t)
    {s : State} (hs : s.schedule = List.replicate k a ++ rest) (hp : P 0 s) :
    ∃ t, Host.Core.run core k s = .next t ∧ t.schedule = rest ∧ P k t := by
  have h := run_schedule (P := fun done => P done.length) (done := []) (fun done b s l hb hps => ?_) hs hp
  · simpa only [List.nil_append, List.length_replicate] using h
  · obtain rfl := List.eq_of_mem_replicate hb
    simpa only [List.length_append, List.length_singleton] using hstep _ s l hps

/-- A command word that is next in the schedule: the run goes on from what the command answers. -/
theorem run_cmdWrite {s t : State} {i : Instr} {rest : List Agent} {k : Nat}
    (hs : s.schedule = .bus (cmdWrite (encode i)) :: rest) (ht : exec i (s.setSchedule rest) = .next t) :
    Host.Core.run core (k + 1) s = Host.Core.run core k t := by
  refine run_cons hs ?_
  rw [agentStep, busAccess_cmdWrite, command, decode_encode]
  exact ht

theorem sha1Step_frame (s : State) : (sha1Step s).nw = s.nw ∧ (sha1Step s).host = s.host ∧
    (sha1Step s).schedule = s.schedule ∧ (sha1Step s).turn = s.turn := (sha1Step_block s).frame

theorem mexpStep_frame (s : State) : (mexpStep s).nw = s.nw ∧ (mexpStep s).host = s.host ∧
    (mexpStep s).schedule = s.schedule ∧ (mexpStep s).turn = s.turn := (mexpStep_block s).frame

end Sys2Proof.Machine
end

section
/-! SUPPORT. A block on its way from acceptance to completion, by the number of SHA1 unit steps since (42_sha1.md R145, R147,
R148). -/

namespace Sys2Proof.Machine

open Sys2Proof.Safety

variable {h : Vector Word 5} {m : Vector Word 16} {n : Nat} {s t : State}

/-- The unit is `n` rounds into the compression of `m` into `h`. -/
def BlockRunning (h : Vector Word 5) (m : Vector Word 16) (n : Nat) (s : State) : Prop :=
  s.sha.phase = .run ∧ s.sha.t.val = n ∧ s.sha.h = h ∧ s.sha.msg = m ∧ ShaTracks s ∧ s.biu.shaDone = false

/-- The unit has compressed `m` into `h`. -/
def BlockFinished (h : Vector Word 5) (m : Vector Word 16) (s : State) : Prop :=
  s.sha.phase = .idle ∧ s.sha.t.val = 0 ∧ s.sha.h = compress h m ∧ s.sha.msg = m ∧ s.biu.shaDone = true

/-- Where the unit stands `n` of its steps after the acceptance of the block `m` with the chaining value `h`. -/
def BlockProgress (h : Vector Word 5) (m : Vector Word 16) (n : Nat) (s : State) : Prop :=
  if n ≤ 80 then BlockRunning h m n s else BlockFinished h m s

theorem BlockProgress.congr (hp : BlockProgress h m n s) (hsha : t.sha = s.sha) (hdone : t.biu.shaDone = s.biu.shaDone) :
    BlockProgress h m n t := by
  unfold BlockProgress BlockRunning BlockFinished ShaTracks at hp ⊢
  rwa [hsha, hdone]

theorem blockProgress_sha1Accept (hi : s.sha.phase = .idle) : BlockProgress s.sha.h s.sha.msg 0 (sha1Accept s) :=
  ⟨rfl, rfl, rfl, rfl, shaTracks_of_blockStep (.sha1Accept hi) (nomatch hi.symm.trans ·), rfl⟩

theorem BlockRunning.round (hp : BlockRunning h m n s) (hn : n < 80) : BlockRunning h m (n + 1) (sha1Step s) := by
  obtain ⟨hrun, rfl, hh, hm, htracks, hdone⟩ := hp
  rw [sha1Step_round hrun hn]
  exact ⟨hrun, rfl, hh, hm, shaTracks_of_blockStep (.sha1Round hrun hn) htracks, hdone⟩

theorem BlockRunning.complete (hp : BlockRunning h m 80 s) : BlockFinished h m (sha1Step s) := by
  obtain ⟨hrun, ht, rfl, rfl, htracks, -⟩ := hp
  obtain ⟨hwork, -⟩ := htracks hrun
  rw [ht] at hwork
  rw [sha1Step_complete hrun ht]
  exact ⟨rfl, rfl, congrArg (feedForward s.sha.h) hwork, rfl, rfl⟩

theorem BlockProgress.sha1Step (hp : BlockProgress h m n s) : BlockProgress h m (n + 1) (sha1Step s) := by
  unfold BlockProgress at hp ⊢
  split_ifs at hp with hn
  · obtain hlt | rfl := Nat.lt_or_eq_of_le hn
    · rw [if_pos (by omega)]
      exact hp.round hlt
    · exact hp.complete
  · rw [if_neg (by omega), sha1Step_idle hp.1]
    exact hp

/-- What SHA1.BLOCK and the steps of its unit leave: all but the SHA1 unit and its DONE bit. -/
def OutsideSha (s t : State) : Prop :=
  t.mexp = s.mexp ∧ t.nw = s.nw ∧ t.host = s.host ∧ t.biu = { s.biu with shaDone := t.biu.shaDone }

theorem OutsideSha.sha1Step (hp : OutsideSha s t) : OutsideSha s (sha1Step t) := by
  obtain ⟨hmexp, hnw, hhost, hbiu⟩ := hp
  obtain ⟨hnw', hhost', -⟩ := sha1Step_frame t
  refine ⟨(sha1Step_mexp t).trans hmexp, hnw'.trans hnw, hhost'.trans hhost, ?_⟩
  rw [sha1Step_biu, hbiu]

/-- SHA1.BLOCK and `k` steps of its unit, scheduled one after another. -/
theorem run_sha1Block {k : Nat} {rest : List Agent} (hi : s.sha.phase = .idle)
    (hs : s.schedule = .bus (cmdWrite (encode .sha1Block)) :: (List.replicate k .sha1 ++ rest)) :
    ∃ t, Host.Core.run core (k + 1) s = .next t ∧ t.schedule = rest ∧ BlockProgress s.sha.h s.sha.msg k t ∧ OutsideSha s t := by
  have haccept := exec_sha1Block_of_idle (s := s.setSchedule (List.replicate k .sha1 ++ rest)) hi
  rw [run_cmdWrite hs haccept]
  refine run_replicate (P := fun n t => BlockProgress s.sha.h s.sha.msg n t ∧ OutsideSha s t) (fun n t l hp => ?_) rfl
    ⟨blockProgress_sha1Accept (s := s.setSchedule _) hi, rfl, rfl, rfl, rfl⟩
  obtain ⟨hblock, hrest⟩ := hp
  obtain ⟨-, -, hsched, -⟩ := sha1Step_frame (t.setSchedule l)
  exact ⟨_, rfl, hsched, BlockProgress.sha1Step (s := t.setSchedule l) hblock, OutsideSha.sha1Step (t := t.setSchedule l) hrest⟩

end Sys2Proof.Machine
end

section
/-! SUPPORT. An exponentiation on its way from acceptance to completion, by the number of MEXP unit steps since (41_modexp.md
R116, R119, R120). -/

namespace Sys2Proof.Machine

open Sys2Proof.Safety

variable {n : Nat} {s₀ s t : State}

/-- bitlen(e) is at most `n` exactly if `e` has no bit from `n` on (R10). -/
theorem bitlen_le_iff {e n : Nat} : bitlen e ≤ n ↔ e / 2 ^ n = 0 := by
  rw [Nat.div_eq_zero_iff_lt (Nat.two_pow_pos n)]
  by_cases he : e = 0
  · simp [bitlen, he]
  · rw [bitlen, if_neg he, Nat.succ_le_iff, Nat.log2_lt he]

/-- The operands and NW are those of `s₀`. -/
def SameOperands (s₀ s : State) : Prop :=
  s.nw = s₀.nw ∧ s.mexp.opa = s₀.mexp.opa ∧ s.mexp.opb = s₀.mexp.opb ∧ s.mexp.mod = s₀.mexp.mod

/-- The unit has taken `n` bits of the exponent off, on the operands of `s₀`. -/
def ExpRunning (s₀ : State) (n : Nat) (s : State) : Prop :=
  s.mexp.phase = .exp ∧ s.mexp.e = opbValue s₀ / 2 ^ n ∧ s.mexp.r < s.mexp.m ∧ MexpTracks s ∧
    s.mexp.result = s₀.mexp.result ∧ s.biu.mexpDone = false

/-- RESULT is the power of the operands of `s₀`. -/
def ExpFinished (s₀ : State) (s : State) : Prop :=
  s.mexp.phase = .idle ∧ resultValue s = modExp (opaValue s₀) (opbValue s₀) (modValue s₀) ∧
    s.mexp.result.length = s₀.nw ∧ s.biu.mexpDone = true

/-- Where the unit stands `n` of its steps after the acceptance of MEXP.EXP in `s₀`. -/
def ExpProgress (s₀ : State) (n : Nat) (s : State) : Prop :=
  SameOperands s₀ s ∧ if n ≤ bitlen (opbValue s₀) then ExpRunning s₀ n s else ExpFinished s₀ s

theorem ExpProgress.congr (hp : ExpProgress s₀ n s) (hmexp : t.mexp = s.mexp) (hnw : t.nw = s.nw)
    (hdone : t.biu.mexpDone = s.biu.mexpDone) : ExpProgress s₀ n t := by
  unfold ExpProgress SameOperands ExpRunning ExpFinished MexpTracks resultValue modValue opaValue opbValue at hp ⊢
  rwa [hmexp, hnw, hdone]

theorem expProgress_mexpAcceptExp (hi : s.mexp.phase = .idle) (hm : modValue s ≠ 0) : ExpProgress s 0 (mexpAcceptExp s) := by
  have htracks : MexpTracks (mexpAcceptExp s) :=
    mexpTracks_of_blockStep (.mexpAcceptExp hi hm) ⟨(nomatch hi.symm.trans ·), (nomatch hi.symm.trans ·)⟩
  refine ⟨⟨rfl, rfl, rfl, rfl⟩, ?_⟩
  rw [if_pos (Nat.zero_le _)]
  exact ⟨rfl, (Nat.div_one _).symm, Nat.mod_lt _ (Nat.pos_of_ne_zero hm), htracks, rfl, rfl⟩

/-- A remainder modulo a modulus of NW words is kept by its NW words (R115). -/
theorem resultValue_mexpComplete (hp : ParamInv s₀) (hs : SameOperands s₀ s) (hm : s.mexp.m = modValue s)
    (hr : s.mexp.r < s.mexp.m) : resultValue (mexpComplete s) = s.mexp.r := by
  obtain ⟨-, -, -, -, hmod, -⟩ := hp
  obtain ⟨hnw, -, -, hsmod⟩ := hs
  have hlt : modValue s < 2 ^ operandBits s.nw := wordsToNat_lt_operandBits (by rw [hsmod, hmod, hnw])
  exact (wordsToNat_natToWords _ _).trans (Nat.mod_eq_of_lt (hr.trans (hm ▸ hlt)))

theorem ExpRunning.bit (hp : ExpRunning s₀ n s) (hn : n < bitlen (opbValue s₀)) : ExpRunning s₀ (n + 1) (mexpStep s) := by
  obtain ⟨hphase, he, hr, htracks, hres, hdone⟩ := hp
  have hne : s.mexp.e ≠ 0 := fun h0 => absurd (bitlen_le_iff.mpr (he.symm.trans h0)) (by omega)
  have hr' : (mexpBit s.mexp).r < (mexpBit s.mexp).m := by
    simp only [mexpBit]
    split_ifs
    · exact Nat.mod_lt _ (Nat.zero_lt_of_lt hr)
    · exact hr
  have he' : (mexpBit s.mexp).e = opbValue s₀ / 2 ^ (n + 1) := by
    rw [pow_succ, ← Nat.div_div_eq_div_mul, ← he]
    rfl
  rw [mexpStep_bit hphase hne]
  exact ⟨hphase, he', hr', mexpTracks_of_blockStep (.mexpBit hphase hne) htracks, hres, hdone⟩

theorem ExpRunning.complete (hp : ExpRunning s₀ (bitlen (opbValue s₀)) s) (hparam : ParamInv s₀) (hs : SameOperands s₀ s) :
    ExpFinished s₀ (mexpStep s) := by
  obtain ⟨hphase, he, hr, ⟨htracks, -⟩, -, -⟩ := hp
  have he0 : s.mexp.e = 0 := he.trans (bitlen_le_iff.mp le_rfl)
  obtain ⟨hm, hpow⟩ := htracks hphase
  rw [he0, pow_zero, mul_one, Nat.mod_eq_of_lt hr] at hpow
  rw [mexpStep_complete (by simp [hphase]) fun _ => he0]
  have hvalue := (resultValue_mexpComplete hparam hs hm hr).trans hpow
  obtain ⟨hnw, ha, hb, hmod⟩ := hs
  unfold opaValue opbValue modValue at hvalue
  rw [ha, hb, hmod] at hvalue
  exact ⟨rfl, hvalue, (natToWords_length _ _).trans hnw, rfl⟩

theorem SameOperands.mexpStep (hs : SameOperands s₀ s) : SameOperands s₀ (mexpStep s) := by
  unfold Machine.mexpStep
  split
  · exact hs
  · split_ifs <;> exact hs
  · exact hs

theorem ExpProgress.mexpStep (hp : ExpProgress s₀ n s) (hparam : ParamInv s₀) : ExpProgress s₀ (n + 1) (mexpStep s) := by
  obtain ⟨hs, hp⟩ := hp
  refine ⟨hs.mexpStep, ?_⟩
  split_ifs at hp with hn
  · obtain hlt | rfl := Nat.lt_or_eq_of_le hn
    · rw [if_pos (by omega)]
      exact hp.bit hlt
    · rw [if_neg (by omega)]
      exact hp.complete hparam hs
  · rw [if_neg (by omega), mexpStep_idle hp.1]
    exact hp

/-- What the commands of MEXP and the steps of its unit leave: all but the MEXP unit and its DONE bit. -/
def OutsideMexp (s t : State) : Prop :=
  t.sha = s.sha ∧ t.nw = s.nw ∧ t.host = s.host ∧ t.biu = { s.biu with mexpDone := t.biu.mexpDone }

theorem OutsideMexp.mexpStep (hp : OutsideMexp s t) : OutsideMexp s (mexpStep t) := by
  obtain ⟨hsha, hnw, hhost, hbiu⟩ := hp
  obtain ⟨hnw', hhost', -⟩ := mexpStep_frame t
  refine ⟨(mexpStep_sha t).trans hsha, hnw'.trans hnw, hhost'.trans hhost, ?_⟩
  rw [mexpStep_biu, hbiu]

/-- MEXP.EXP and `k` steps of its unit, scheduled one after another. -/
theorem run_mexpExp {k : Nat} {rest : List Agent} (hparam : ParamInv s) (hi : s.mexp.phase = .idle) (hm : modValue s ≠ 0)
    (hs : s.schedule = .bus (cmdWrite (encode .mexpExp)) :: (List.replicate k .mexp ++ rest)) :
    ∃ t, Host.Core.run core (k + 1) s = .next t ∧ t.schedule = rest ∧ ExpProgress s k t ∧ OutsideMexp s t := by
  have haccept := exec_mexpExp_of_idle (s := s.setSchedule (List.replicate k .mexp ++ rest)) hi hm
  rw [run_cmdWrite hs haccept]
  refine run_replicate (P := fun n t => ExpProgress s n t ∧ OutsideMexp s t) (fun n t l hp => ?_) rfl
    ⟨expProgress_mexpAcceptExp (s := s.setSchedule _) hi hm, rfl, rfl, rfl, rfl⟩
  obtain ⟨hexp, hrest⟩ := hp
  obtain ⟨-, -, hsched, -⟩ := mexpStep_frame (t.setSchedule l)
  exact ⟨_, rfl, hsched, ExpProgress.mexpStep (s := t.setSchedule l) hexp hparam,
    OutsideMexp.mexpStep (t := t.setSchedule l) hrest⟩

end Sys2Proof.Machine
end

section
/-! SUPPORT. Both units on their way together, the steps of each and reads in any order (10_state.md R21). -/

namespace Sys2Proof.Machine

open Sys2Proof.Safety

variable {s s₀ : State} {done : List Agent}

/-- Where both units stand after the steps of the agents `done`, since the acceptance of both commands in `s₀`. -/
def BothProgress (s₀ : State) (done : List Agent) (s : State) : Prop :=
  BlockProgress s₀.sha.h s₀.sha.msg (done.count .sha1) s ∧ ExpProgress s₀ (done.count .mexp) s ∧
    s.biu = { s₀.biu with shaDone := s.biu.shaDone, mexpDone := s.biu.mexpDone }

/-- A step of a unit moves its own progress on by one, and a read moves neither. -/
theorem BothProgress.quiet (hp : BothProgress s₀ done s) (hparam : ParamInv s₀) {a : Agent} (ha : Quiet a) :
    ∃ t, agentStep a s = .next t ∧ t.schedule = s.schedule ∧ BothProgress s₀ (done ++ [a]) t := by
  obtain ⟨hblock, hexp, hbiu⟩ := hp
  simp only [BothProgress, List.count_append]
  obtain rfl | rfl | ⟨x, rfl, had, hdir⟩ := ha
  · obtain ⟨hnw, -, hsched, -⟩ := sha1Step_frame s
    refine ⟨sha1Step s, rfl, hsched, hblock.sha1Step, hexp.congr (sha1Step_mexp s) hnw ?_, ?_⟩ <;> rw [sha1Step_biu]
    rw [hbiu]
  · obtain ⟨-, -, hsched, -⟩ := mexpStep_frame s
    refine ⟨mexpStep s, rfl, hsched, hblock.congr (mexpStep_sha s) ?_, hexp.mexpStep hparam, ?_⟩ <;> rw [mexpStep_biu]
    rw [hbiu]
  · refine ⟨busRead x.off s, ?_, rfl, hblock.congr rfl rfl, hexp.congr rfl rfl rfl, hbiu⟩
    simp only [agentStep, busAccess, had, hdir, if_true]

/-- SHA1.BLOCK, MEXP.EXP, and then unit steps and reads as scheduled. -/
theorem run_bothCommands {as rest : List Agent} (hparam : ParamInv s) (hsha : s.sha.phase = .idle) (hmexp : s.mexp.phase = .idle)
    (hm : modValue s ≠ 0) (hq : ∀ a ∈ as, Quiet a)
    (hs : s.schedule = .bus (cmdWrite (encode .sha1Block)) :: .bus (cmdWrite (encode .mexpExp)) :: (as ++ rest)) :
    ∃ t, Host.Core.run core (as.length + 2) s = .next t ∧ t.schedule = rest ∧ BothProgress s as t := by
  have hblock := exec_sha1Block_of_idle (s := s.setSchedule (.bus (cmdWrite (encode .mexpExp)) :: (as ++ rest))) hsha
  have hexp (l : List Agent) := exec_mexpExp_of_idle (s := (sha1Accept (s.setSchedule l)).setSchedule (as ++ rest)) hmexp hm
  rw [run_cmdWrite hs hblock, run_cmdWrite rfl (hexp _)]
  refine run_schedule (done := []) (fun done a t l ha hp => ?_) rfl ?_
  · exact BothProgress.quiet (s := t.setSchedule l) hp hparam (hq a ha)
  · exact ⟨(blockProgress_sha1Accept (s := s.setSchedule _) hsha).congr rfl rfl, expProgress_mexpAcceptExp hmexp hm, rfl⟩

end Sys2Proof.Machine
end

section
/-! The statements about what the commands compute (41_modexp.md, 42_sha1.md, 70_reset_and_hazards.md section 4). -/

namespace Sys2Proof.Machine

open Sys2Proof.Safety

/-- Settles O26: acceptance, 80 rounds and the completion, of which a run of fewer steps shows the first. -/
theorem blockCommandComputesCompress : Obligations.BlockCommandComputesCompress := by
  refine fun s rest hi hs => ⟨?_, fun k hk => ?_⟩
  · obtain ⟨t, hrun, hsched, hblock, hmexp, hnw, hhost, hbiu⟩ := run_sha1Block hi hs
    unfold BlockProgress at hblock
    rw [if_neg (by decide)] at hblock
    obtain ⟨hidle, ht, hh, hm, hdone⟩ := hblock
    rw [hdone] at hbiu
    exact ⟨t, hrun, hh, hm, hidle, ht, hbiu, hmexp, hnw, hhost, hsched⟩
  · obtain ⟨d, hd⟩ := Nat.exists_eq_add_of_le hk.le
    rw [hd, List.replicate_add, List.append_assoc] at hs
    obtain ⟨t, hrun, -, hblock, -, -, -, hbiu⟩ := run_sha1Block hi hs
    unfold BlockProgress at hblock
    rw [if_pos (Nat.le_of_lt_succ hk)] at hblock
    obtain ⟨hphase, ht, hh, hm, -, hdone⟩ := hblock
    rw [hdone] at hbiu
    exact ⟨t, hrun, hphase, ht, hh, hm, hbiu⟩

/-- Settles O27: acceptance, one step for each bit of OPB and the completion, of which a run of fewer steps shows the first. -/
theorem expCommandComputesModExp : Obligations.ExpCommandComputesModExp := by
  refine fun s rest hparam hi hm hs => ⟨?_, fun k hk => ?_⟩
  · obtain ⟨t, hrun, hsched, ⟨⟨-, ha, hb, hmod⟩, hexp⟩, hsha, hnw, hhost, hbiu⟩ := run_mexpExp hparam hi hm hs
    rw [if_neg (Nat.not_succ_le_self _)] at hexp
    obtain ⟨hidle, hvalue, hlen, hdone⟩ := hexp
    rw [hdone] at hbiu
    exact ⟨t, hrun, hvalue, hlen, hidle, hbiu, ha, hb, hmod, hsha, hnw, hhost, hsched⟩
  · obtain ⟨d, hd⟩ := Nat.exists_eq_add_of_le hk.le
    rw [hd, List.replicate_add, List.append_assoc] at hs
    obtain ⟨t, hrun, -, ⟨-, hexp⟩, -, -, -, hbiu⟩ := run_mexpExp hparam hi hm hs
    rw [if_pos (Nat.le_of_lt_succ hk)] at hexp
    obtain ⟨hphase, -, -, -, hres, hdone⟩ := hexp
    rw [hdone] at hbiu
    exact ⟨t, hrun, mexpBusy_eq_true.mpr (by simp [hphase]), hres, hbiu⟩

/-- Settles O28: acceptance puts the product in u.r, and the one unit step is the completion. -/
theorem mulCommandComputesModMul : Obligations.MulCommandComputesModMul := by
  intro s rest hparam hi hm hs
  have haccept := exec_mexpMul_of_idle (s := s.setSchedule (.mexp :: rest)) hi hm
  refine ⟨mexpComplete ((mexpAcceptMul (s.setSchedule (.mexp :: rest))).setSchedule rest),
    (run_cmdWrite hs haccept).trans (run_cons rfl rfl), ?_, natToWords_length _ _, rfl, rfl, rfl, rfl⟩
  exact resultValue_mexpComplete hparam ⟨rfl, rfl, rfl, rfl⟩ rfl (Nat.mod_lt _ (Nat.pos_of_ne_zero hm))

/-- Settles O29: each unit's progress is counted by its own steps, whatever stands between them. -/
theorem everyInterleavingGivesBothResults : Obligations.EveryInterleavingGivesBothResults := by
  intro s as rest hparam hsha hmexp hm hq hsteps hbits hs
  obtain ⟨t, hrun, hsched, hblock, ⟨-, hexp⟩, hbiu⟩ := run_bothCommands hparam hsha hmexp hm hq hs
  unfold BlockProgress at hblock
  rw [if_neg (by omega)] at hblock
  rw [if_neg (by omega)] at hexp
  obtain ⟨hshaIdle, -, hh, -, hshaDone⟩ := hblock
  obtain ⟨hmexpIdle, hvalue, -, hmexpDone⟩ := hexp
  rw [hshaDone, hmexpDone] at hbiu
  exact ⟨t, hrun, hsched, hh, hvalue, shaBusy_eq_false.mpr hshaIdle, mexpBusy_eq_false.mpr hmexpIdle, hbiu⟩

end Sys2Proof.Machine
end
